-- ==== Sys2Proof/Word.lean ====
section
/-! DEFINITION. The word types of the machine (10_state.md rule R20, 30_encoding.md rule R91). Every quantity is
unsigned (00_scope.md rule R9: "this machine has no signed quantity anywhere"). -/

namespace Sys2Proof

/-- The contents of a V register, a memory cell or a timer, and the immediate `kk`: 8 bits. -/
abbrev Byte := BitVec 8

/-- An instruction word, the program counter, a stack entry or the key bitmap: 16 bits. -/
abbrev Word := BitVec 16

/-- The index register `I` and the immediate `nnn`: 12 bits (R24, R91). -/
abbrev Index := BitVec 12

/-- The immediate `n` and one hexadecimal digit of an instruction word: 4 bits (R91). -/
abbrev Nibble := BitVec 4

/-- The name of one of the sixteen general registers V0 to VF (R21). -/
abbrev Reg := Fin 16

/-- The code of one of the sixteen keys of the hexadecimal keypad (R11, R37). -/
abbrev Key := Fin 16

end Sys2Proof
end

