-- ==== Sys2Proof/Config.lean ====
section
/-! DEFINITION. The named parameters of 00_scope.md rule R7, as one record, and the free value of a random draw
(R8). The record is held in State as the model's own field, so that every meaning is defined for EVERY value of every
parameter; no step and no host operation changes it (assumption log 1). The default values stand in
Machine/Params.lean. -/

namespace Sys2Proof

/-- `SHIFT_SOURCE` (R7, R173, R175; decision D4). -/
inductive ShiftSource where
  | vx  -- shift Vx in place
  | vy  -- shift Vy into Vx
  deriving DecidableEq, Repr

/-- `FX1E_VF` (R7, R191; decision D5). -/
inductive IndexFlag where
  | off  -- `Fx1E` leaves VF alone
  | on   -- `Fx1E` writes VF with the overflow past 0xFFF
  deriving DecidableEq, Repr

/-- `DRAW_EDGE` (R7, R211; decision D6). -/
inductive DrawEdge where
  | wrap  -- pixels past an edge wrap to the other side
  | clip  -- pixels past an edge are dropped
  deriving DecidableEq, Repr

/-- `FONT_WRITE` (R7, R64; decision D17). -/
inductive FontWrite where
  | fault  -- a store into the font table raises BoundsError
  | allow  -- a store into the font table is performed
  deriving DecidableEq, Repr

/-- `FONT_TABLE` (R7, R41; decision D1): "any 80 bytes". -/
abbrev FontTable := Vector Byte 80

/-- The parameters of a machine, "fixed for the life of a machine" (R7, R20). -/
structure Config where
  shiftSource : ShiftSource
  indexFlag   : IndexFlag
  drawEdge    : DrawEdge
  fontWrite   : FontWrite
  fontTable   : FontTable
  deriving DecidableEq, Repr

/-- The byte of the `k`-th random draw of a machine (R8, R177: `draw()` is "a free 8-bit value"). Nothing constrains
it: the constant has no body, so a claim about `Cxkk` holds whatever bytes are drawn (assumption log 2). -/
opaque Config.freeDraw : Nat → Byte

end Sys2Proof
end

