-- ==== Sys2Proof/Machine/Params.lean ====
section
/-! DEFINITION. The fixed sizes of 00_scope.md rule R6 and the default values of the parameters of rule R7. -/

namespace Sys2Proof.Machine

/-- `MEM_SIZE = 4096`: addresses 0x000 to 0xFFF (R6). -/
def memSize : Nat := 0x1000
/-- `FONT_BASE = 0x000` (R6, R41). -/
def fontBase : Nat := 0x000
/-- `FONT_LEN = 80` (R6). -/
def fontLen : Nat := 80
/-- `ROM_BASE = 0x200`: where `load_rom` writes and where PC starts (R6, R291). -/
def romBase : Nat := 0x200

/-- The conventional font: the default of `FONT_TABLE` (R41, decision D1; general knowledge, not in the source). -/
def defaultFontBytes : List Byte :=
  [0xF0, 0x90, 0x90, 0x90, 0xF0] ++ [0x20, 0x60, 0x20, 0x20, 0x70]     -- 0 1
  ++ [0xF0, 0x10, 0xF0, 0x80, 0xF0] ++ [0xF0, 0x10, 0xF0, 0x10, 0xF0]  -- 2 3
  ++ [0x90, 0x90, 0xF0, 0x10, 0x10] ++ [0xF0, 0x80, 0xF0, 0x10, 0xF0]  -- 4 5
  ++ [0xF0, 0x80, 0xF0, 0x90, 0xF0] ++ [0xF0, 0x10, 0x20, 0x40, 0x40]  -- 6 7
  ++ [0xF0, 0x90, 0xF0, 0x90, 0xF0] ++ [0xF0, 0x90, 0xF0, 0x10, 0xF0]  -- 8 9
  ++ [0xF0, 0x90, 0xF0, 0x90, 0x90] ++ [0xE0, 0x90, 0xE0, 0x90, 0xE0]  -- A B
  ++ [0xF0, 0x80, 0x80, 0x80, 0xF0] ++ [0xE0, 0x90, 0x90, 0x90, 0xE0]  -- C D
  ++ [0xF0, 0x80, 0xF0, 0x80, 0xF0] ++ [0xF0, 0x80, 0xF0, 0x80, 0x80]  -- E F

/-- `FONT_TABLE`'s default as the 80 bytes of a table. -/
def defaultFont : FontTable := ⟨defaultFontBytes.toArray, rfl⟩

/-- The defaults of R7. -/
def defaultConfig : Config where
  shiftSource := .vx
  indexFlag   := .off
  drawEdge    := .wrap
  fontWrite   := .fault
  fontTable   := defaultFont

end Sys2Proof.Machine
end

