-- ==== Sys2Proof/Machine/State.lean ====
section
/-! DEFINITION. The state of the machine (10_state.md rule R20: "the complete architectural state of the core is the
following tuple, and nothing else"), its reset value (R45), and the reasons a step can stop (60_exceptions.md rules
R250, R251). -/

namespace Sys2Proof.Machine

/-- What a BoundsError is about (R251). `addr` is "the offending effective address, an integer", and it is "present for
`MemRead` and `MemWrite` only". -/
inductive BoundsKind where
  | memRead (addr : Nat)
  | memWrite (addr : Nat)
  | stackOverflow
  | stackUnderflow
  deriving DecidableEq, Repr

/-- The fault records (R250, R251): the error taxonomy is closed, there is no other synchronous exception. -/
inductive Fault where
  /-- "memory/stack access outside valid range". Raised by a step: a fetch, `Dxyn`, `Fx65` (reads), `Fx33`, `Fx55`
  (stores), `2nnn`, `00EE` (stack), as R252 lists. The spec's own fault, so the stop is the hardware's: safe. -/
  | boundsError (kind : BoundsKind) (pc : Word)
  /-- "unrecognized opcode pattern". Raised by a step whose fetched word is unassigned (R97, R253). The spec's own
  fault, so the stop is the hardware's: safe. -/
  | decodeError (opcode : Word) (pc : Word)
  /-- "ROM too large or unreadable". Raised by the host operation `load_rom` only, never by a step (R254). The spec's
  own fault, recoverable: safe. -/
  | romLoadError (len : Nat)
  deriving DecidableEq, Repr

/-- What the model gives no move to. -/
inductive Refusal where
  /-- Raised by an arm of exec whose instruction has no meaning yet; no arm does. Safe. -/
  | notModelled (mnemonic : String)
  /-- Raised by `step` when `RUN = FAULTED(record)`: "A step is defined only when `RUN = RUNNING`" (R125). Safe. -/
  | stepAfterFault (record : Fault)
  /-- Raised by `tick_timers`, `set_key` and `load_rom` when `RUN = FAULTED(record)`: "a tick or `set_key` after a fault
  has no meaning this spec defines" (R125), and `load_rom` is for the time before the first step (R270). Safe. -/
  | hostOpAfterFault (record : Fault)
  /-- Raised by `set_key` with a code above 15, "outside the host's contract" (R37, decision D26). Safe. -/
  | keyCodeOutOfRange (code : Nat)
  /-- Raised by `load_rom` "after the first `step()`, or twice", "outside the host's contract" (R292, R270, decision D21;
  93_implementation_defined.md U8). Safe. -/
  | loadOutOfTurn
  deriving DecidableEq, Repr

/-- `RUN` (R43). -/
inductive RunStatus where
  | running
  | faulted (record : Fault)
  deriving DecidableEq, Repr

/-- Where the host stands in the boot sequence of R292: whether `load_rom` may still be called (assumption log 5). -/
inductive BootPhase where
  /-- after `reset()`, with no image loaded and no step taken -/
  | awaitingRom
  /-- an image has been loaded or a step taken since -/
  | underway
  deriving DecidableEq, Repr

/-- The listed bytes of `MEM`, in canonical form: addresses strictly rising, no entry equal to what an unlisted address
reads as. -/
abbrev Memory := List Host.Cell

/-- `FB`: 32 rows, top row first, of 64 pixels, leftmost first; `true` is set (R36). -/
abbrev Framebuffer := Vector (Vector Bool 64) 32

/-- The state. The last three fields are the model's own, not the spec's. -/
structure State where
  /-- `V[0..15]` (R21); VF is `V[15]` (R22) -/
  v     : Vector Byte 16
  /-- `I` (R24) -/
  i     : Index
  /-- `PC` (R26) -/
  pc    : Word
  /-- `STACK[0..15]` (R29) -/
  stack : Vector Word 16
  /-- `SP`, "the number of occupied entries, 0 to 16" (R30) -/
  sp    : Fin 17
  /-- `DT` (R33) -/
  dt    : Byte
  /-- `ST` (R33) -/
  st    : Byte
  /-- `FB` (R36) -/
  fb    : Framebuffer
  /-- `KEYS`: bit `k` is 1 while key `k` is pressed (R37) -/
  keys  : Word
  /-- `MEM` (R40) -/
  mem   : Memory
  /-- `RUN` (R43) -/
  run   : RunStatus
  /-- the machine's parameters (R7), never changed (assumption log 1) -/
  cfg   : Config
  /-- how many random bytes have been drawn (assumption log 2) -/
  draws : Nat
  /-- where the host stands in the boot sequence (R292); no instruction reads or writes it (assumption log 5) -/
  boot  : BootPhase
  deriving DecidableEq, Repr

/-- What one step answers. -/
abbrev Result := Host.Outcome State Fault Refusal

/-- The reset values of R45 for a machine with parameters `c` whose next random draw is number `d`. Nothing is listed
in memory: an unlisted address reads as reset leaves it (Machine/Ops.lean). -/
def State.resetWith (c : Config) (d : Nat) : State where
  v     := Vector.replicate 16 0x00
  i     := 0x000
  pc    := 0x0200
  stack := Vector.replicate 16 0x0000
  sp    := 0
  dt    := 0x00
  st    := 0x00
  fb    := Vector.replicate 32 (Vector.replicate 64 false)
  keys  := 0x0000
  mem   := []
  run   := .running
  cfg   := c
  draws := d
  boot  := .awaitingRom

/-- The machine right after reset, with the default parameters of R7. -/
def State.reset : State := State.resetWith defaultConfig 0

end Sys2Proof.Machine
end

