-- ==== Sys2Proof/Syntax.lean ====
section
/-! DEFINITION. The 34 instructions of 30_encoding.md rule R96, one constructor per row of spec/opcode_table.json, in
the order of rule R96. Operand fields are those of the row's format (R92). -/

namespace Sys2Proof

/-- An instruction with its operand fields (R96). -/
inductive Instr where
  | cls                              -- 00E0  CLS            R210
  | ret                              -- 00EE  RET            R140
  | jp (nnn : Index)                 -- 1nnn  JP nnn         R141
  | call (nnn : Index)               -- 2nnn  CALL nnn       R142
  | seImm (x : Reg) (kk : Byte)      -- 3xkk  SE Vx, kk      R144
  | sneImm (x : Reg) (kk : Byte)     -- 4xkk  SNE Vx, kk     R145
  | seReg (x y : Reg)                -- 5xy0  SE Vx, Vy      R146
  | ldImm (x : Reg) (kk : Byte)      -- 6xkk  LD Vx, kk      R165
  | addImm (x : Reg) (kk : Byte)     -- 7xkk  ADD Vx, kk     R166
  | ldReg (x y : Reg)                -- 8xy0  LD Vx, Vy      R167
  | orReg (x y : Reg)                -- 8xy1  OR Vx, Vy      R168
  | andReg (x y : Reg)               -- 8xy2  AND Vx, Vy     R169
  | xorReg (x y : Reg)               -- 8xy3  XOR Vx, Vy     R170
  | addReg (x y : Reg)               -- 8xy4  ADD Vx, Vy     R171
  | subReg (x y : Reg)               -- 8xy5  SUB Vx, Vy     R172
  | shr (x y : Reg)                  -- 8xy6  SHR Vx, Vy     R173
  | subn (x y : Reg)                 -- 8xy7  SUBN Vx, Vy    R174
  | shl (x y : Reg)                  -- 8xyE  SHL Vx, Vy     R175
  | sneReg (x y : Reg)               -- 9xy0  SNE Vx, Vy     R147
  | ldIndex (nnn : Index)            -- Annn  LD I, nnn      R190
  | jpV0 (nnn : Index)               -- Bnnn  JP V0, nnn     R143
  | rnd (x : Reg) (kk : Byte)        -- Cxkk  RND Vx, kk     R177
  | drw (x y : Reg) (n : Nibble)     -- Dxyn  DRW Vx, Vy, n  R211
  | skp (x : Reg)                    -- Ex9E  SKP Vx         R230
  | sknp (x : Reg)                   -- ExA1  SKNP Vx        R231
  | ldDelay (x : Reg)                -- Fx07  LD Vx, DT      R233
  | waitKey (x : Reg)                -- Fx0A  LD Vx, K       R232
  | setDelay (x : Reg)               -- Fx15  LD DT, Vx      R234
  | setSound (x : Reg)               -- Fx18  LD ST, Vx      R235
  | addIndex (x : Reg)               -- Fx1E  ADD I, Vx      R191
  | ldFont (x : Reg)                 -- Fx29  LD F, Vx       R192
  | storeBcd (x : Reg)               -- Fx33  LD B, Vx       R193
  | storeRegs (x : Reg)              -- Fx55  LD [I], Vx     R194
  | loadRegs (x : Reg)               -- Fx65  LD Vx, [I]     R195
  deriving DecidableEq, Repr

end Sys2Proof
end

