-- ==== Sys2Proof/WellFormed.lean ====
section
/-! DEFINITION. What the machine may be given. A term of Instr carries its bounds in its types (a register is one of
sixteen, an immediate has the width of its field), and beyond them the spec asks nothing: "all 16 values are legal"
(30_encoding.md rule R93), "no field of a legal instruction has a reserved value" (R98). What CAN be ill-formed is what
the host hands over: a program image (20_memory.md rule R69) and a key code (10_state.md rule R37). -/

namespace Sys2Proof

/-- Every instruction term is well formed (R93, R98). -/
def Instr.wellFormed (_ : Instr) : Bool := true

/-- "maximum ROM length `ROM_MAX = 4096 - 0x200 = 3584` bytes" (R6). -/
def romMax : Nat := 4096 - 0x200

/-- A program image that `load_rom` accepts: not empty (R69, `90_conflicts.md` C7) ... -/
def romNotEmpty (bytes : List Byte) : Bool := decide (0 < bytes.length)

/-- ... and not longer than the memory from 0x200 up (R69). -/
def romFits (bytes : List Byte) : Bool := decide (bytes.length ≤ romMax)

/-- The image check of `load_rom` (R69, R254). -/
def romWellFormed (bytes : List Byte) : Bool := romNotEmpty bytes && romFits bytes

/-- A key code of `set_key`: "`code` in 0–15" (R37). -/
def keyWellFormed (code : Nat) : Bool := decide (code < 16)

end Sys2Proof
end

