-- ==== Sys2Proof/Machine/Ops.lean ====
section
/-! DEFINITION. The named operations over registers, memory, stack and program counter that every meaning uses
(00_scope.md rule R10), and raising a fault (60_exceptions.md). -/

namespace Sys2Proof.Machine

/-! ### Faults (R255, R257) -/

/-- `raise <Fault>(info)`: the step ends with the record and writes nothing else (R10, R255). -/
def raise {α : Type} (f : Fault) : Except Fault α := .error f

/-- The address the instruction being executed was fetched from: PC is already `a + 2` in the execute phase (R122), and
"in every record `pc` is `a`" (R251). -/
def instrPc (s : State) : Word := s.pc - 2

/-- The answer of an execute phase that may have raised a fault. -/
def complete (r : Except Fault State) : Result :=
  match r with
  | .ok t => .next t
  | .error f => .fault f

/-- `RUN <- FAULTED(record)`, "no architectural state except `RUN`" (R255, R257): taking a fault. There is no handler
and no saved state (R257). -/
def latchFault (s : State) (f : Fault) : State := { s with run := .faulted f }

/-- `reset()`: every element at its reset value (R290); "the only way out of `FAULTED`" (R258). The parameters are the
machine's, and the random source has no state to reset, so the number of the next draw goes on (assumption log 2). -/
def machineReset (s : State) : State := State.resetWith s.cfg s.draws

/-! ### General registers (R21) -/

/-- `V[x]`. -/
def State.getV (s : State) (x : Reg) : Byte := s.v[x.val]
/-- `V[x] <- b`. -/
def State.setV (s : State) (x : Reg) (b : Byte) : State := { s with v := s.v.set x.val b }
/-- VF, the register that doubles as the flag (R22). -/
def vf : Reg := 15

/-- `V[k] <- b0, V[k+1] <- b1, …`, in ascending order (R195). -/
def State.setVs (s : State) (k : Nat) : List Byte → State
  | [] => s
  | b :: bs => State.setVs (if h : k < 16 then s.setV ⟨k, h⟩ b else s) (k + 1) bs

/-! ### Memory (R40, R41, R60 to R64) -/

/-- Is the address in the font table, 0x000 to 0x04F (R41)? -/
def isFontAddr (a : Nat) : Bool := decide (fontBase ≤ a ∧ a < fontBase + fontLen)

/-- What an address that nothing has written reads as: the reset contents, `FONT_TABLE` in the font table and 0
elsewhere (R45). -/
def resetByte (font : FontTable) (a : Nat) : Byte :=
  if h : fontBase ≤ a ∧ a - fontBase < 80 then font[a - fontBase]'h.2 else 0x00

/-- `MEM[a]`. -/
def Memory.read (font : FontTable) : Memory → Nat → Byte
  | [], a => resetByte font a
  | (k, b) :: m, a => if a = k then b else Memory.read font m a

/-- `MEM[a] <- b` on the canonical list: the entry of `a` is put in its place, or taken out when `b` is what `a` reads
as unlisted. -/
def Memory.write (font : FontTable) : Memory → Nat → Byte → Memory
  | [], a, b => if b = resetByte font a then [] else [(a, b)]
  | (k, c) :: m, a, b =>
    if a < k then if b = resetByte font a then (k, c) :: m else (a, b) :: (k, c) :: m
    else if a = k then if b = resetByte font a then m else (a, b) :: m
    else (k, c) :: Memory.write font m a b

/-- The canonical form: addresses strictly rising and inside the memory, no entry that an unlisted address would read
as. -/
abbrev Memory.wf (font : FontTable) (m : Memory) : Prop :=
  m.Pairwise (fun p q => p.1 < q.1) ∧ ∀ p ∈ m, p.1 < memSize ∧ p.2 ≠ resetByte font p.1

/-- `MEM[a]` of a state. -/
def State.readByte (s : State) (a : Nat) : Byte := s.mem.read s.cfg.fontTable a
/-- `MEM[a] <- b` with no check: reset, `load_rom` and the stores that have passed their checks. -/
def State.pokeByte (s : State) (a : Nat) (b : Byte) : State := { s with mem := s.mem.write s.cfg.fontTable a b }

/-- `MEM[a] <- b0, MEM[a+1] <- b1, …` with no check. -/
def State.pokeBytes (s : State) (a : Nat) : List Byte → State
  | [] => s
  | b :: bs => (State.pokeBytes s (a + 1) bs).pokeByte a b

/-- `MemRead(addr, 1)` (R62), in an instruction fetched from `pc`; `addr` is computed without wrapping. -/
def memRead (s : State) (pc : Word) (addr : Nat) : Except Fault Byte :=
  if addr > 0xFFF then raise (.boundsError (.memRead addr) pc) else .ok (s.readByte addr)

/-- `MemWrite(addr, 1, b)` (R63, R64), in an instruction fetched from `pc`. -/
def memWrite (s : State) (pc : Word) (addr : Nat) (b : Byte) : Except Fault State :=
  if addr > 0xFFF then raise (.boundsError (.memWrite addr) pc)
  else if isFontAddr addr = true ∧ s.cfg.fontWrite = .fault then raise (.boundsError (.memWrite addr) pc)
  else .ok (s.pokeByte addr b)

/-- `n` reads at ascending addresses from `addr`; the first that faults is the one reported (R256). -/
def memReads (s : State) (pc : Word) (addr : Nat) : Nat → Except Fault (List Byte)
  | 0 => .ok []
  | n + 1 =>
    match memRead s pc addr with
    | .error f => .error f
    | .ok b =>
      match memReads s pc (addr + 1) n with
      | .error f => .error f
      | .ok bs => .ok (b :: bs)

/-- Stores at ascending addresses from `addr`; the first that faults is the one reported, and then none is kept
(R255, R256). -/
def memWrites (s : State) (pc : Word) (addr : Nat) : List Byte → Except Fault State
  | [] => .ok s
  | b :: bs =>
    match memWrite s pc addr b with
    | .error f => .error f
    | .ok t => memWrites t pc (addr + 1) bs

/-! ### Stack (R29 to R32) -/

/-- `Push(w)` (R31), in an instruction fetched from `pc`. -/
def push (s : State) (pc : Word) (w : Word) : Except Fault State :=
  if h : s.sp.val < 16 then
    .ok { s with stack := s.stack.set s.sp.val w, sp := ⟨s.sp.val + 1, by omega⟩ }
  else raise (.boundsError .stackOverflow pc)

/-- `Pop()` (R32), in an instruction fetched from `pc`: the entry and the state with SP decremented; "the popped entry
is left in place". -/
def pop (s : State) (pc : Word) : Except Fault (Word × State) :=
  if h : 0 < s.sp.val then
    .ok (s.stack[s.sp.val - 1], { s with sp := ⟨s.sp.val - 1, by omega⟩ })
  else raise (.boundsError .stackUnderflow pc)

/-! ### Program counter (R27, R122) -/

/-- `PC <- target`. -/
def State.setPc (s : State) (target : Word) : State := { s with pc := target }

/-- `PC <- a + 2`, before the execute phase (R122). -/
def advance (s : State) : State := s.setPc (s.pc + 2)

/-- `if c then PC <- PC + 2` (R144). -/
def skipIf (c : Bool) (s : State) : State := if c then s.setPc (s.pc + 2) else s

/-! ### Index register, timers, random source -/

/-- `I <- a` (R24). -/
def State.setI (s : State) (a : Index) : State := { s with i := a }

/-- One decrement of a timer: "decremented by exactly 1 per 60Hz tick while > 0", "clamped at zero" (R34). -/
def countDown (t : Byte) : Byte := if t = 0x00 then 0x00 else t - 1

/-- `draw()` (R10, R177): the next free byte, and the state in which it has been drawn. -/
def draw (s : State) : Byte × State := (Config.freeDraw s.draws, { s with draws := s.draws + 1 })

/-! ### Framebuffer (R36) -/

/-- `FB[y][x]`. -/
def Framebuffer.pixel (fb : Framebuffer) (x : Fin 64) (y : Fin 32) : Bool := fb[y.val][x.val]
/-- `FB[y][x] <- FB[y][x] ^ 1`. -/
def Framebuffer.flip (fb : Framebuffer) (x : Fin 64) (y : Fin 32) : Framebuffer :=
  fb.set y.val (fb[y.val].set x.val (!fb[y.val][x.val]))
/-- All pixels unset (R210). -/
def Framebuffer.blank : Framebuffer := Vector.replicate 32 (Vector.replicate 64 false)

/-- `pixel_at(x, y)` (R36, R270). -/
def pixelAt (s : State) (x : Fin 64) (y : Fin 32) : Bool := Framebuffer.pixel s.fb x y

end Sys2Proof.Machine
end

