-- ==== Sys2Proof/Machine/Operands.lean ====
section
/-! DEFINITION. How instructions form their operands: the shift operand (42_load_alu.md), the effective address
(43_index_memory.md rule R196), the font address, decimal digits, the start coordinates of a draw, the key selection.
Every function reads the state before the instruction writes (10_state.md rule R23). -/

namespace Sys2Proof.Machine

/-- `s := V[x] if SHIFT_SOURCE = VX else V[y]` (R173, R175). -/
def shiftOperand (s : State) (x y : Reg) : Byte :=
  match s.cfg.shiftSource with
  | .vx => s.getV x
  | .vy => s.getV y

/-- The base of every data access: `ea = I + k`, "computed as an integer without wrapping" (R196). -/
def dataBase (s : State) : Nat := s.i.toNat

/-- `(FONT_BASE + V[x] * 5) mod 4096` (R192). -/
def fontAddress (b : Byte) : Index := BitVec.ofNat 12 (fontBase + b.toNat * 5)

/-- `(I + V[x]) mod 4096` (R191). -/
def indexSum (i : Index) (b : Byte) : Index := BitVec.ofNat 12 (i.toNat + b.toNat)

/-- `zext_16(nnn)` (R141, R142). -/
def jumpTarget (nnn : Index) : Word := nnn.setWidth 16

/-- `zext_16(nnn) + zext_16(V[0])`, "held in the 16-bit PC without reduction modulo 4096" (R143). -/
def offsetTarget (nnn : Index) (b : Byte) : Word := nnn.setWidth 16 + b.setWidth 16

/-- The decimal digits of a byte: hundreds, tens, ones (R193). -/
def decimalDigits (b : Byte) : List Byte :=
  [BitVec.ofNat 8 (b.toNat / 100), BitVec.ofNat 8 (b.toNat / 10 % 10), BitVec.ofNat 8 (b.toNat % 10)]

/-- `V[0..x]` (R194). -/
def regBlock (s : State) (x : Reg) : List Byte := s.v.toList.take (x.val + 1)

/-- `x0 := V[x] mod 64` (R211). -/
def startColumn (s : State) (x : Reg) : Nat := (s.getV x).toNat % 64

/-- `y0 := V[y] mod 32` (R211). -/
def startRow (s : State) (y : Reg) : Nat := (s.getV y).toNat % 32

/-- `k := V[x][3:0]` (R236). -/
def keySelected (s : State) (x : Reg) : Key := ((s.getV x).extractLsb' 0 4).toFin

/-- `pressed(k)`: `KEYS[k] = 1` (R236). -/
def keyPressed (s : State) (k : Key) : Bool := s.keys.getLsbD k.val

/-- "the least i in 0..15 with KEYS[i] = 1", if there is one (R232). -/
def lowestKey (s : State) : Option Key := (List.finRange 16).find? (keyPressed s)

end Sys2Proof.Machine
end

