-- ==== Sys2Proof/Machine/ControlFlow.lean ====
section
/-! DEFINITION. The control-flow instructions (41_control_flow.md). In every meaning PC already equals `a + 2`. -/

namespace Sys2Proof.Machine

/-- R140: `PC <- Pop()`. -/
def execRet (s : State) : Result :=
  match pop s (instrPc s) with
  | .ok (target, t) => .next (t.setPc target)
  | .error f => .fault f

/-- R141: `PC <- zext_16(nnn)`. -/
def execJp (nnn : Index) (s : State) : Result := .next (s.setPc (jumpTarget nnn))

/-- R142: `Push(PC)`; `PC <- zext_16(nnn)`. -/
def execCall (nnn : Index) (s : State) : Result :=
  match push s (instrPc s) s.pc with
  | .ok t => .next (t.setPc (jumpTarget nnn))
  | .error f => .fault f

/-- R143: `PC <- zext_16(nnn) + zext_16(V[0])`. -/
def execJpV0 (nnn : Index) (s : State) : Result := .next (s.setPc (offsetTarget nnn (s.getV 0)))

/-- R144: `if V[x] = kk then PC <- PC + 2`. -/
def execSeImm (x : Reg) (kk : Byte) (s : State) : Result := .next (skipIf (decide (s.getV x = kk)) s)

/-- R145: `if V[x] ≠ kk then PC <- PC + 2`. -/
def execSneImm (x : Reg) (kk : Byte) (s : State) : Result := .next (skipIf (decide (s.getV x ≠ kk)) s)

/-- R146: `if V[x] = V[y] then PC <- PC + 2`. -/
def execSeReg (x y : Reg) (s : State) : Result := .next (skipIf (decide (s.getV x = s.getV y)) s)

/-- R147: `if V[x] ≠ V[y] then PC <- PC + 2`. -/
def execSneReg (x y : Reg) (s : State) : Result := .next (skipIf (decide (s.getV x ≠ s.getV y)) s)

end Sys2Proof.Machine
end

