-- ==== Sys2Proof/Machine/Flags.lean ====
section
/-! DEFINITION. Every value that an instruction gives VF as a side effect (10_state.md rule R22), and the order of
result and flag (42_load_alu.md rule R161). The collision flag of `Dxyn` is computed with the drawing
(Machine/Display.lean). -/

namespace Sys2Proof.Machine

/-- "VF is always written with the full 8-bit value `0x00` or `0x01`" (R22). -/
def flagByte (f : Bool) : Byte := if f then 0x01 else 0x00

/-- Carry: `1 if p + q > 255` (R171). -/
def carry (p q : Byte) : Bool := decide (p.toNat + q.toNat > 255)

/-- NOT borrow of `p − q`: `1 if p ≥ q` (R172, R174). -/
def notBorrow (p q : Byte) : Bool := decide (p.toNat ≥ q.toNat)

/-- The bit a right shift pushes out: `s[0]` (R173). -/
def shiftedOutLow (b : Byte) : Bool := b.getLsbD 0

/-- The bit a left shift pushes out: `s[7]` (R175). -/
def shiftedOutHigh (b : Byte) : Bool := b.getLsbD 7

/-- Overflow of `I + V[x]` past 0xFFF (R191). -/
def indexOverflow (i : Index) (b : Byte) : Bool := decide (i.toNat + b.toNat > 0xFFF)

/-- "It then writes `V[x] <- r` first and `V[15] <- f` second" (R161). -/
def setResultFlag (s : State) (x : Reg) (r : Byte) (f : Bool) : State := (s.setV x r).setV vf (flagByte f)

end Sys2Proof.Machine
end

