-- ==== Sys2Proof/Machine/Display.lean ====
section
/-! DEFINITION. The display instructions (44_display.md): clear, and the XOR-blit of rule R211. -/

namespace Sys2Proof.Machine

/-- Where a sprite pixel at `(px, py)` falls on the screen: wrapped with `DRAW_EDGE = WRAP`, nowhere if past an edge with
`CLIP` (R211). -/
def placePixel (edge : DrawEdge) (px py : Nat) : Option (Fin 64 × Fin 32) :=
  match edge with
  | .wrap => some (⟨px % 64, Nat.mod_lt _ (by decide)⟩, ⟨py % 32, Nat.mod_lt _ (by decide)⟩)
  | .clip => if h : px < 64 ∧ py < 32 then some (⟨px, h.1⟩, ⟨py, h.2⟩) else none

/-- XOR one sprite 1-bit into the framebuffer; the Bool is `coll`, set when a set pixel is about to become unset
(R211). -/
def drawPixel (edge : DrawEdge) (px py : Nat) (acc : Framebuffer × Bool) : Framebuffer × Bool :=
  match placePixel edge px py with
  | none => acc
  | some (x, y) => (Framebuffer.flip acc.1 x y, acc.2 || Framebuffer.pixel acc.1 x y)

/-- Sprite column `c` of a sprite byte is its bit `7 − c` (R212). -/
def spriteBit (row : Byte) (c : Nat) : Bool := row.getLsbD (7 - c)

/-- The inner loop of R211, over the sprite columns `cs` of one row drawn at screen row `py`. -/
def drawColumns (edge : DrawEdge) (x0 py : Nat) (row : Byte) : List Nat → Framebuffer × Bool → Framebuffer × Bool
  | [], acc => acc
  | c :: cs, acc =>
    drawColumns edge x0 py row cs (if spriteBit row c then drawPixel edge (x0 + c) py acc else acc)

/-- The outer loop of R211, over the sprite's rows, the first at screen row `py`. -/
def drawRows (edge : DrawEdge) (x0 py : Nat) : List Byte → Framebuffer × Bool → Framebuffer × Bool
  | [], acc => acc
  | row :: rows, acc => drawRows edge x0 (py + 1) rows (drawColumns edge x0 py row [0, 1, 2, 3, 4, 5, 6, 7] acc)

/-- R210: `FB[y][x] <- 0` for every pixel. -/
def execCls (s : State) : Result := .next { s with fb := Framebuffer.blank }

/-- R211: all sprite bytes are read first, "so a fault leaves FB untouched"; then the blit; then `V[15] <- coll`. -/
def execDrw (x y : Reg) (n : Nibble) (s : State) : Result :=
  match memReads s (instrPc s) (dataBase s) n.toNat with
  | .error f => .fault f
  | .ok rows =>
    let drawn := drawRows s.cfg.drawEdge (startColumn s x) (startRow s y) rows (s.fb, false)
    .next (({ s with fb := drawn.1 } : State).setV vf (flagByte drawn.2))

end Sys2Proof.Machine
end

