-- ==== Sys2Proof/Machine/IndexMemory.lean ====
section
/-! DEFINITION. The index-register and memory instructions (43_index_memory.md). No access changes I (R196). -/

namespace Sys2Proof.Machine

/-- R190: `I <- nnn`. -/
def execLdIndex (nnn : Index) (s : State) : Result := .next (s.setI nnn)

/-- R191: `I <- (I + V[x]) mod 4096`; with `FX1E_VF = ON` VF receives the overflow past 0xFFF. -/
def execAddIndex (x : Reg) (s : State) : Result :=
  match s.cfg.indexFlag with
  | .off => .next (s.setI (indexSum s.i (s.getV x)))
  | .on => .next ((s.setI (indexSum s.i (s.getV x))).setV vf (flagByte (indexOverflow s.i (s.getV x))))

/-- R192: `I <- (FONT_BASE + V[x] * 5) mod 4096`. -/
def execLdFont (x : Reg) (s : State) : Result := .next (s.setI (fontAddress (s.getV x)))

/-- R193: store the decimal digits of `V[x]` at I, I+1, I+2. -/
def execStoreBcd (x : Reg) (s : State) : Result :=
  complete (memWrites s (instrPc s) (dataBase s) (decimalDigits (s.getV x)))

/-- R194: `for i in 0 .. x: MemWrite(I + i, 1, V[i])`. -/
def execStoreRegs (x : Reg) (s : State) : Result :=
  complete (memWrites s (instrPc s) (dataBase s) (regBlock s x))

/-- R195: `for i in 0 .. x: V[i] <- MemRead(I + i, 1)`. -/
def execLoadRegs (x : Reg) (s : State) : Result :=
  match memReads s (instrPc s) (dataBase s) (x.val + 1) with
  | .ok bytes => .next (s.setVs 0 bytes)
  | .error f => .fault f

end Sys2Proof.Machine
end

