-- ==== Sys2Proof/Machine/KeypadTimers.lean ====
section
/-! DEFINITION. The keypad and timer instructions (45_keypad_timers.md). None can raise a fault in its execute phase. -/

namespace Sys2Proof.Machine

/-- R230: `if KEYS[k] = 1 then PC <- PC + 2`, `k := V[x][3:0]`. -/
def execSkp (x : Reg) (s : State) : Result := .next (skipIf (keyPressed s (keySelected s x)) s)

/-- R231: `if KEYS[k] = 0 then PC <- PC + 2`, `k := V[x][3:0]`. -/
def execSknp (x : Reg) (s : State) : Result := .next (skipIf (!keyPressed s (keySelected s x)) s)

/-- R232: with no key down `PC <- PC - 2`, so that the instruction is fetched again; else the lowest pressed key's
code. -/
def execWaitKey (x : Reg) (s : State) : Result :=
  match lowestKey s with
  | none => .next (s.setPc (s.pc - 2))
  | some k => .next (s.setV x (BitVec.ofNat 8 k.val))

/-- R233: `V[x] <- DT`. -/
def execLdDelay (x : Reg) (s : State) : Result := .next (s.setV x s.dt)

/-- R234: `DT <- V[x]`. -/
def execSetDelay (x : Reg) (s : State) : Result := .next { s with dt := s.getV x }

/-- R235: `ST <- V[x]`. -/
def execSetSound (x : Reg) (s : State) : Result := .next { s with st := s.getV x }

end Sys2Proof.Machine
end

