-- ==== Sys2Proof/Machine/LoadAlu.lean ====
section
/-! DEFINITION. The register load, arithmetic, logic and random instructions (42_load_alu.md). None of them can raise a
fault in its execute phase, and none writes PC. -/

namespace Sys2Proof.Machine

/-- R165: `V[x] <- kk`. -/
def execLdImm (x : Reg) (kk : Byte) (s : State) : Result := .next (s.setV x kk)

/-- R166: `V[x] <- (V[x] + kk) mod 256`; VF is not written. -/
def execAddImm (x : Reg) (kk : Byte) (s : State) : Result := .next (s.setV x (s.getV x + kk))

/-- R167: `V[x] <- V[y]`. -/
def execLdReg (x y : Reg) (s : State) : Result := .next (s.setV x (s.getV y))

/-- R168: `V[x] <- V[x] | V[y]`; VF is not written (decision D12). -/
def execOrReg (x y : Reg) (s : State) : Result := .next (s.setV x (s.getV x ||| s.getV y))

/-- R169: `V[x] <- V[x] & V[y]`; VF is not written (decision D12). -/
def execAndReg (x y : Reg) (s : State) : Result := .next (s.setV x (s.getV x &&& s.getV y))

/-- R170: `V[x] <- V[x] ^ V[y]`; VF is not written (decision D12). -/
def execXorReg (x y : Reg) (s : State) : Result := .next (s.setV x (s.getV x ^^^ s.getV y))

/-- R171: `V[x] <- (V[x] + V[y]) mod 256`; VF is the carry. -/
def execAddReg (x y : Reg) (s : State) : Result :=
  .next (setResultFlag s x (s.getV x + s.getV y) (carry (s.getV x) (s.getV y)))

/-- R172: `V[x] <- (V[x] − V[y]) mod 256`; VF is NOT borrow. -/
def execSubReg (x y : Reg) (s : State) : Result :=
  .next (setResultFlag s x (s.getV x - s.getV y) (notBorrow (s.getV x) (s.getV y)))

/-- R173: shift right by one; VF is the bit shifted out. -/
def execShr (x y : Reg) (s : State) : Result :=
  .next (setResultFlag s x (shiftOperand s x y >>> 1) (shiftedOutLow (shiftOperand s x y)))

/-- R174: `V[x] <- (V[y] − V[x]) mod 256`; VF is NOT borrow. -/
def execSubn (x y : Reg) (s : State) : Result :=
  .next (setResultFlag s x (s.getV y - s.getV x) (notBorrow (s.getV y) (s.getV x)))

/-- R175: shift left by one; VF is the bit shifted out. -/
def execShl (x y : Reg) (s : State) : Result :=
  .next (setResultFlag s x (shiftOperand s x y <<< 1) (shiftedOutHigh (shiftOperand s x y)))

/-- R177: `r := draw()`; `V[x] <- r & kk`. -/
def execRnd (x : Reg) (kk : Byte) (s : State) : Result := .next ((draw s).2.setV x ((draw s).1 &&& kk))

end Sys2Proof.Machine
end

