-- ==== Sys2Proof/Decode.lean ====
section
/-! DEFINITION. Decoding and encoding (30_encoding.md). The decoder is written from the dispatch description R94 (the
primary nibble, then a secondary key), the encoder from the patterns of R92, and `opcodeTable` repeats the `match` and
`mask` columns of R96; an obligation says that the three agree. -/

namespace Sys2Proof

/-- Why bytes decode to no instruction. -/
inductive DecodeRefusal where
  /-- fewer than two bytes were given (every instruction is two bytes, R90) -/
  | truncated
  /-- the word is unassigned (R97) -/
  | unassigned (op : Word)
  deriving DecidableEq, Repr

/-! ### Fields of an instruction word (R91) -/

/-- `n1 = op[15:12]`. -/
def fieldN1 (op : Word) : Nibble := op.extractLsb' 12 4
/-- `x = op[11:8]`. -/
def fieldX (op : Word) : Reg := (op.extractLsb' 8 4).toFin
/-- `y = op[7:4]`. -/
def fieldY (op : Word) : Reg := (op.extractLsb' 4 4).toFin
/-- `n = op[3:0]`. -/
def fieldN (op : Word) : Nibble := op.extractLsb' 0 4
/-- `kk = op[7:0]`. -/
def fieldKk (op : Word) : Byte := op.extractLsb' 0 8
/-- `nnn = op[11:0]`. -/
def fieldNnn (op : Word) : Index := op.extractLsb' 0 12

/-! ### Bytes and words (R65): the byte at the lower address is the high byte -/

/-- `op = MEM[a] ++ MEM[a+1]`. -/
def wordOfBytes (hi lo : Byte) : Word := hi ++ lo
/-- `op[15:8]`, the byte at the lower address. -/
def highByte (op : Word) : Byte := op.extractLsb' 8 8
/-- `op[7:0]`, the byte at the higher address. -/
def lowByte (op : Word) : Byte := op.extractLsb' 0 8
/-- The two bytes of a word in the order the memory holds them. -/
def wordBytes (op : Word) : List Byte := [highByte op, lowByte op]

/-! ### Decoding (R94, R95, R97) -/

/-- Family 0: "the whole word must be `0x00E0` or `0x00EE`". -/
def decodeFamily0 (op : Word) : Except DecodeRefusal Instr :=
  if op = 0x00E0#16 then .ok .cls
  else if op = 0x00EE#16 then .ok .ret
  else .error (.unassigned op)

/-- Family 8: "the secondary key is `n`". -/
def decodeFamily8 (op : Word) : Except DecodeRefusal Instr :=
  match fieldN op with
  | 0x0#4 => .ok (.ldReg (fieldX op) (fieldY op))
  | 0x1#4 => .ok (.orReg (fieldX op) (fieldY op))
  | 0x2#4 => .ok (.andReg (fieldX op) (fieldY op))
  | 0x3#4 => .ok (.xorReg (fieldX op) (fieldY op))
  | 0x4#4 => .ok (.addReg (fieldX op) (fieldY op))
  | 0x5#4 => .ok (.subReg (fieldX op) (fieldY op))
  | 0x6#4 => .ok (.shr (fieldX op) (fieldY op))
  | 0x7#4 => .ok (.subn (fieldX op) (fieldY op))
  | 0xE#4 => .ok (.shl (fieldX op) (fieldY op))
  | _ => .error (.unassigned op)

/-- Family E: "the secondary key is `kk`". -/
def decodeFamilyE (op : Word) : Except DecodeRefusal Instr :=
  match fieldKk op with
  | 0x9E#8 => .ok (.skp (fieldX op))
  | 0xA1#8 => .ok (.sknp (fieldX op))
  | _ => .error (.unassigned op)

/-- Family F: "the secondary key is `kk`". -/
def decodeFamilyF (op : Word) : Except DecodeRefusal Instr :=
  match fieldKk op with
  | 0x07#8 => .ok (.ldDelay (fieldX op))
  | 0x0A#8 => .ok (.waitKey (fieldX op))
  | 0x15#8 => .ok (.setDelay (fieldX op))
  | 0x18#8 => .ok (.setSound (fieldX op))
  | 0x1E#8 => .ok (.addIndex (fieldX op))
  | 0x29#8 => .ok (.ldFont (fieldX op))
  | 0x33#8 => .ok (.storeBcd (fieldX op))
  | 0x55#8 => .ok (.storeRegs (fieldX op))
  | 0x65#8 => .ok (.loadRegs (fieldX op))
  | _ => .error (.unassigned op)

/-- The decoder, "a function of the 16-bit word alone" (R94, R123). For families 5 and 9 "the low nibble `n` must be 0"
(R95). -/
def decodeWord (op : Word) : Except DecodeRefusal Instr :=
  match fieldN1 op with
  | 0x0#4 => decodeFamily0 op
  | 0x1#4 => .ok (.jp (fieldNnn op))
  | 0x2#4 => .ok (.call (fieldNnn op))
  | 0x3#4 => .ok (.seImm (fieldX op) (fieldKk op))
  | 0x4#4 => .ok (.sneImm (fieldX op) (fieldKk op))
  | 0x5#4 => if fieldN op = 0x0#4 then .ok (.seReg (fieldX op) (fieldY op)) else .error (.unassigned op)
  | 0x6#4 => .ok (.ldImm (fieldX op) (fieldKk op))
  | 0x7#4 => .ok (.addImm (fieldX op) (fieldKk op))
  | 0x8#4 => decodeFamily8 op
  | 0x9#4 => if fieldN op = 0x0#4 then .ok (.sneReg (fieldX op) (fieldY op)) else .error (.unassigned op)
  | 0xA#4 => .ok (.ldIndex (fieldNnn op))
  | 0xB#4 => .ok (.jpV0 (fieldNnn op))
  | 0xC#4 => .ok (.rnd (fieldX op) (fieldKk op))
  | 0xD#4 => .ok (.drw (fieldX op) (fieldY op) (fieldN op))
  | 0xE#4 => decodeFamilyE op
  | 0xF#4 => decodeFamilyF op
  | _ => .error (.unassigned op)

/-- Decode the instruction at the head of a byte sequence and give the rest of it (R90, R65). -/
def decodeBytes : List Byte → Except DecodeRefusal (Instr × List Byte)
  | hi :: lo :: rest =>
    match decodeWord (wordOfBytes hi lo) with
    | .ok i => .ok (i, rest)
    | .error e => .error e
  | _ => .error .truncated

/-! ### Encoding (R92, R96) -/

/-- A register number as the four bits of its field. -/
def regBits (x : Reg) : Nibble := BitVec.ofFin x

/-- Format `NNN`: `hnnn`. -/
def formatNnn (h : Nibble) (nnn : Index) : Word := h ++ nnn
/-- Format `XKK`: `hxkk`; with `kk` a fixed key it is also format `X`: `hxhh`. -/
def formatXkk (h : Nibble) (x : Reg) (kk : Byte) : Word := (h ++ regBits x) ++ kk
/-- Format `XYN`: `hxyn`; with `n` a fixed key it is also format `XY`: `hxyh`. -/
def formatXyn (h : Nibble) (x y : Reg) (n : Nibble) : Word := ((h ++ regBits x) ++ regBits y) ++ n

/-- The word of an instruction (R96). -/
def encode : Instr → Word
  | .cls => 0x00E0#16
  | .ret => 0x00EE#16
  | .jp nnn => formatNnn 0x1 nnn
  | .call nnn => formatNnn 0x2 nnn
  | .seImm x kk => formatXkk 0x3 x kk
  | .sneImm x kk => formatXkk 0x4 x kk
  | .seReg x y => formatXyn 0x5 x y 0x0
  | .ldImm x kk => formatXkk 0x6 x kk
  | .addImm x kk => formatXkk 0x7 x kk
  | .ldReg x y => formatXyn 0x8 x y 0x0
  | .orReg x y => formatXyn 0x8 x y 0x1
  | .andReg x y => formatXyn 0x8 x y 0x2
  | .xorReg x y => formatXyn 0x8 x y 0x3
  | .addReg x y => formatXyn 0x8 x y 0x4
  | .subReg x y => formatXyn 0x8 x y 0x5
  | .shr x y => formatXyn 0x8 x y 0x6
  | .subn x y => formatXyn 0x8 x y 0x7
  | .shl x y => formatXyn 0x8 x y 0xE
  | .sneReg x y => formatXyn 0x9 x y 0x0
  | .ldIndex nnn => formatNnn 0xA nnn
  | .jpV0 nnn => formatNnn 0xB nnn
  | .rnd x kk => formatXkk 0xC x kk
  | .drw x y n => formatXyn 0xD x y n
  | .skp x => formatXkk 0xE x 0x9E
  | .sknp x => formatXkk 0xE x 0xA1
  | .ldDelay x => formatXkk 0xF x 0x07
  | .waitKey x => formatXkk 0xF x 0x0A
  | .setDelay x => formatXkk 0xF x 0x15
  | .setSound x => formatXkk 0xF x 0x18
  | .addIndex x => formatXkk 0xF x 0x1E
  | .ldFont x => formatXkk 0xF x 0x29
  | .storeBcd x => formatXkk 0xF x 0x33
  | .storeRegs x => formatXkk 0xF x 0x55
  | .loadRegs x => formatXkk 0xF x 0x65

/-- The bytes of an instruction, high byte first (R90). -/
def encodeBytes (i : Instr) : List Byte := wordBytes (encode i)

/-! ### The opcode map as data (R96) -/

/-- One row of R96: the pattern's fixed bits. -/
structure OpcodeRow where
  mnemonic  : String
  matchBits : Word
  mask      : Word
  deriving DecidableEq, Repr

/-- "An instruction matches a word when `(op & mask) = match`" (R92). -/
def OpcodeRow.matchesWord (r : OpcodeRow) (op : Word) : Bool := decide (op &&& r.mask = r.matchBits)

/-- The row of an instruction, its mnemonic as spec/opcode_table.json spells it (R96). -/
def Instr.row : Instr → OpcodeRow
  | .cls => ⟨"CLS", 0x00E0, 0xFFFF⟩
  | .ret => ⟨"RET", 0x00EE, 0xFFFF⟩
  | .jp _ => ⟨"JP_nnn", 0x1000, 0xF000⟩
  | .call _ => ⟨"CALL_nnn", 0x2000, 0xF000⟩
  | .seImm _ _ => ⟨"SE_Vx__kk", 0x3000, 0xF000⟩
  | .sneImm _ _ => ⟨"SNE_Vx__kk", 0x4000, 0xF000⟩
  | .seReg _ _ => ⟨"SE_Vx__Vy", 0x5000, 0xF00F⟩
  | .ldImm _ _ => ⟨"LD_Vx__kk", 0x6000, 0xF000⟩
  | .addImm _ _ => ⟨"ADD_Vx__kk", 0x7000, 0xF000⟩
  | .ldReg _ _ => ⟨"LD_Vx__Vy", 0x8000, 0xF00F⟩
  | .orReg _ _ => ⟨"OR_Vx__Vy", 0x8001, 0xF00F⟩
  | .andReg _ _ => ⟨"AND_Vx__Vy", 0x8002, 0xF00F⟩
  | .xorReg _ _ => ⟨"XOR_Vx__Vy", 0x8003, 0xF00F⟩
  | .addReg _ _ => ⟨"ADD_Vx__Vy", 0x8004, 0xF00F⟩
  | .subReg _ _ => ⟨"SUB_Vx__Vy", 0x8005, 0xF00F⟩
  | .shr _ _ => ⟨"SHR_Vx__Vy", 0x8006, 0xF00F⟩
  | .subn _ _ => ⟨"SUBN_Vx__Vy", 0x8007, 0xF00F⟩
  | .shl _ _ => ⟨"SHL_Vx__Vy", 0x800E, 0xF00F⟩
  | .sneReg _ _ => ⟨"SNE_Vx__Vy", 0x9000, 0xF00F⟩
  | .ldIndex _ => ⟨"LD_I__nnn", 0xA000, 0xF000⟩
  | .jpV0 _ => ⟨"JP_V0__nnn", 0xB000, 0xF000⟩
  | .rnd _ _ => ⟨"RND_Vx__kk", 0xC000, 0xF000⟩
  | .drw _ _ _ => ⟨"DRW_Vx__Vy__n", 0xD000, 0xF000⟩
  | .skp _ => ⟨"SKP_Vx", 0xE09E, 0xF0FF⟩
  | .sknp _ => ⟨"SKNP_Vx", 0xE0A1, 0xF0FF⟩
  | .ldDelay _ => ⟨"LD_Vx__DT", 0xF007, 0xF0FF⟩
  | .waitKey _ => ⟨"LD_Vx__K", 0xF00A, 0xF0FF⟩
  | .setDelay _ => ⟨"LD_DT__Vx", 0xF015, 0xF0FF⟩
  | .setSound _ => ⟨"LD_ST__Vx", 0xF018, 0xF0FF⟩
  | .addIndex _ => ⟨"ADD_I__Vx", 0xF01E, 0xF0FF⟩
  | .ldFont _ => ⟨"LD_F__Vx", 0xF029, 0xF0FF⟩
  | .storeBcd _ => ⟨"LD_B__Vx", 0xF033, 0xF0FF⟩
  | .storeRegs _ => ⟨"LD__I___Vx", 0xF055, 0xF0FF⟩
  | .loadRegs _ => ⟨"LD_Vx___I", 0xF065, 0xF0FF⟩

/-- One instruction of each constructor, in the order of R96. -/
def instrSamples : List Instr :=
  [.cls, .ret, .jp 0, .call 0, .seImm 0 0, .sneImm 0 0, .seReg 0 0, .ldImm 0 0, .addImm 0 0]
  ++ [.ldReg 0 0, .orReg 0 0, .andReg 0 0, .xorReg 0 0, .addReg 0 0, .subReg 0 0, .shr 0 0, .subn 0 0, .shl 0 0]
  ++ [.sneReg 0 0, .ldIndex 0, .jpV0 0, .rnd 0 0, .drw 0 0 0, .skp 0, .sknp 0]
  ++ [.ldDelay 0, .waitKey 0, .setDelay 0, .setSound 0, .addIndex 0, .ldFont 0, .storeBcd 0, .storeRegs 0, .loadRegs 0]

/-- The 34 rows of R96. -/
def opcodeTable : List OpcodeRow := instrSamples.map Instr.row

/-! ### The table's numbering of bits -/

/-- The instruction word whose bits are the low `nbits` bits of `w` (every instruction is one word, R90; bits above
`nbits` are 0). -/
def tableWord (nbits w : Nat) : Word := BitVec.ofNat 16 (w % 2 ^ nbits)

/-- The instruction the decoder reads from the bytes of a table word, laid out as the memory holds them. -/
def decodeTableWord (nbits w : Nat) : Option Instr :=
  match decodeBytes (wordBytes (tableWord nbits w)) with
  | .ok (i, _) => some i
  | .error _ => none

end Sys2Proof
end

