-- ==== Sys2Proof/Machine/Fetch.lean ====
section
/-! DEFINITION. Fetch and decode (40_cycle.md rules R121, R123), and putting a word where the next fetch reads it. -/

namespace Sys2Proof.Machine

/-- "two one-byte reads through `MemRead`, at `PC` then at `PC + 1`", big-endian (R121, R65). -/
def fetchWord (s : State) : Except Fault Word :=
  match memRead s s.pc s.pc.toNat with
  | .error f => .error f
  | .ok hi =>
    match memRead s s.pc (s.pc.toNat + 1) with
    | .error f => .error f
    | .ok lo => .ok (wordOfBytes hi lo)

/-- Decode of the fetched word; an unassigned word raises `DecodeError(op, a)` (R123, R253). -/
def fetchInstr (s : State) : Except Fault Instr :=
  match fetchWord s with
  | .error f => .error f
  | .ok op =>
    match decodeWord op with
    | .ok i => .ok i
    | .error _ => raise (.decodeError op s.pc)

/-- The state in which the next fetch reads the word `op`: the word stands at PC (at the entry point 0x200 if no word
fits at PC), and `RUN = RUNNING`. -/
def placeWord (s : State) (op : Word) : State :=
  let a : Word := if s.pc.toNat ≤ 0xFFE then s.pc else BitVec.ofNat 16 romBase
  ({ s with pc := a, run := .running } : State).pokeBytes a.toNat (wordBytes op)

end Sys2Proof.Machine
end

