-- ==== Sys2Proof/Machine/Step.lean ====
section
/-! DEFINITION. One step, the host's `step()` (40_cycle.md rule R120). -/

namespace Sys2Proof.Machine

/-- Require `RUN = RUNNING`, fetch, decode, advance PC, execute (R120, R125). -/
def step (s : State) : Host.Outcome State Fault Refusal :=
  match s.run with
  | .faulted record => .refused (.stepAfterFault record)
  | .running =>
    match fetchInstr s with
    | .error f => .fault f
    | .ok i => exec i (advance s)

/-- `s` with the instruction word of the table's bits `w` where the next fetch reads it. -/
def State.withFetchWord (s : State) (nbits w : Nat) : State := placeWord s (tableWord nbits w)

end Sys2Proof.Machine
end

