-- ==== Sys2Proof/Machine/HostOps.lean ====
section
/-! DEFINITION. The host's operations (60_exceptions.md rule R270): each is atomic and falls between two steps. The
order in which the host performs them is free (R8, R262): a claim about a run is a claim about every list of them. -/

namespace Sys2Proof.Machine

/-- An operation of the host that can change the state. (`framebuffer`, `pixel_at` and `sound_active` read it and change
nothing: `pixelAt`, `soundActive`.) -/
inductive HostOp where
  | reset
  | loadRom (bytes : List Byte)
  | step
  | tickTimers
  | setKey (code : Nat) (pressed : Bool)
  deriving DecidableEq, Repr

/-- What the host gets back. -/
inductive HostReply where
  /-- the operation took place -/
  | done (s : State)
  /-- the operation failed with a record; the state is what it leaves: `RUN = FAULTED(record)` after a faulting step
  (R255), unchanged after a RomLoadError (R254) -/
  | failed (s : State) (record : Fault)
  /-- the operation is outside the host's contract (R125, R270) -/
  | outside (why : Refusal)
  deriving DecidableEq, Repr

/-- `tick_timers()` (R34): each timer counts down by one, a timer at 0 stays 0. -/
def tickTimers (s : State) : State := { s with dt := countDown s.dt, st := countDown s.st }

/-- `KEYS[k] <- pressed` (R37). -/
def setKeyBit (s : State) (k : Key) (pressed : Bool) : State :=
  { s with keys := if pressed then s.keys ||| (1#16 <<< k.val) else s.keys &&& ~~~(1#16 <<< k.val) }

/-- `sound_active()`: `ST > 0` (R35). -/
def soundActive (s : State) : Bool := decide (s.st ≠ 0x00)

/-- The time for `load_rom` is over: an image is loaded or a step taken (R292). -/
def State.beginRun (s : State) : State := { s with boot := .underway }

/-- `load_rom(bytes)` (R69, R254): once, "after `reset()`, before the first `step()`" (R270, R292); after a RomLoadError
"the host may try another image" (R292). -/
def loadRom (s : State) (bytes : List Byte) : HostReply :=
  match s.boot with
  | .underway => .outside .loadOutOfTurn
  | .awaitingRom =>
    if romWellFormed bytes then .done (s.pokeBytes romBase bytes).beginRun else .failed s (.romLoadError bytes.length)

/-- `step()` as the host sees it: it ends the time for `load_rom` (R270); a fault leaves `RUN = FAULTED(record)`, which
ends it too, and hands the record over (R255, R257). -/
def hostStep (s : State) : HostReply :=
  match step s with
  | .next t => .done t.beginRun
  | .fault f => .failed (latchFault s f) f
  | .refused r => .outside r

/-- `set_key(code, pressed)` (R37, R270). -/
def hostSetKey (s : State) (code : Nat) (pressed : Bool) : HostReply :=
  if keyWellFormed code then .done (setKeyBit s (Fin.ofNat 16 code) pressed) else .outside (.keyCodeOutOfRange code)

/-- One operation of the host (R270). Only `reset()` is allowed when `RUN = FAULTED(record)`. -/
def hostDo (op : HostOp) (s : State) : HostReply :=
  match op, s.run with
  | .reset, _ => .done (machineReset s)
  | .step, _ => hostStep s
  | .loadRom _, .faulted r => .outside (.hostOpAfterFault r)
  | .tickTimers, .faulted r => .outside (.hostOpAfterFault r)
  | .setKey _ _, .faulted r => .outside (.hostOpAfterFault r)
  | .loadRom bytes, .running => loadRom s bytes
  | .tickTimers, .running => .done (tickTimers s)
  | .setKey code pressed, .running => hostSetKey s code pressed

/-- The state an operation leaves, if it is within the host's contract. -/
def HostReply.state? : HostReply → Option State
  | .done s => some s
  | .failed s _ => some s
  | .outside _ => none

/-- The state a list of operations leaves, if all are within the host's contract. -/
def hostRun : List HostOp → State → Option State
  | [], s => some s
  | op :: ops, s =>
    match (hostDo op s).state? with
    | some t => hostRun ops t
    | none => none

end Sys2Proof.Machine
end

