-- ==== Sys2Proof/Safety.lean ====
section
/-! DEFINITION. The terms in which claims about the machine are made: frames ("what is left unchanged"), the conditions
under which an access is in range, the shape of a drawn sprite, and the invariants. They are written from the rules and
not over the meanings' own helper functions. -/

namespace Sys2Proof.Machine

/-! ### Encoding -/

/-- The words with `op & mask = match`, and no others, decode to the instruction `i op` (R92, R96). -/
def EncodedAs (matchBits mask : Word) (i : Word → Instr) : Prop :=
  ∀ op : Word, op &&& mask = matchBits ↔ decodeWord op = .ok (i op)

/-! ### Frames -/

/-- Every byte of memory reads as before. -/
def SameMemory (s t : State) : Prop := ∀ a : Nat, t.readByte a = s.readByte a

/-- Every byte outside the `len` bytes from `base` reads as before. -/
def SameMemoryOutside (base len : Nat) (s t : State) : Prop :=
  ∀ a : Nat, ¬ (base ≤ a ∧ a < base + len) → t.readByte a = s.readByte a

/-- Only the general registers in `written` may differ. -/
def OnlyRegs (written : Reg → Prop) (s t : State) : Prop :=
  (∀ j : Reg, ¬ written j → t.getV j = s.getV j) ∧ SameMemory s t ∧ t = { s with v := t.v }

/-- Only PC may differ. -/
def OnlyPc (s t : State) : Prop := SameMemory s t ∧ t = { s with pc := t.pc }

/-- Only I may differ. -/
def OnlyIndex (s t : State) : Prop := SameMemory s t ∧ t = { s with i := t.i }

/-- Only the `len` bytes from `base` may differ. -/
def OnlyBytes (base len : Nat) (s t : State) : Prop :=
  SameMemoryOutside base len s t ∧ t = { s with mem := t.mem }

/-! ### Conditions on operands -/

/-- A store to `addr` passes the checks of R63 and R64. -/
def StoreAllowed (s : State) (addr : Nat) : Prop :=
  addr ≤ 0xFFF ∧ (s.cfg.fontWrite = .fault → 0x04F < addr)

/-- Key `k` is down: `KEYS[k] = 1` (R37). -/
def KeyDown (s : State) (k : Key) : Prop := s.keys.getLsbD k.val = true

/-- The entry a pop would give: `STACK[SP - 1]` (R32). -/
def topEntry (s : State) : Word := s.stack[s.sp.val - 1]

/-- The word `op` stands at PC, where a fetch can read it (R65, R121). -/
def WordAtPc (s : State) (op : Word) : Prop :=
  s.pc.toNat + 1 ≤ 0xFFF ∧ s.readByte s.pc.toNat = highByte op ∧ s.readByte (s.pc.toNat + 1) = lowByte op

/-- A sprite pixel at `(X, Y)` lands on the screen pixel `(px, py)` (R211). -/
def LandsOn (edge : DrawEdge) (X Y : Nat) (px : Fin 64) (py : Fin 32) : Prop :=
  match edge with
  | .wrap => X % 64 = px.val ∧ Y % 32 = py.val
  | .clip => X = px.val ∧ Y = py.val

/-- A 1-bit of the sprite drawn by `Dxyn` lands on `(px, py)`: row `r` is `MEM[I + r]`, and sprite column `c` is bit
`7 − c` (R212, R211). -/
def SpriteCovers (s : State) (x y : Reg) (n : Nibble) (px : Fin 64) (py : Fin 32) : Prop :=
  ∃ r c : Nat, r < n.toNat ∧ c < 8 ∧ (s.readByte (s.i.toNat + r)).getLsbD (7 - c) = true ∧
    LandsOn s.cfg.drawEdge ((s.getV x).toNat % 64 + c) ((s.getV y).toNat % 32 + r) px py

/-! ### Whole-machine tables -/

/-- PC after an instruction fetched from `a` (R27). -/
def pcAfter (i : Instr) (s : State) (a : Word) : Word :=
  match i with
  | .jp nnn => nnn.setWidth 16
  | .call nnn => nnn.setWidth 16
  | .ret => topEntry s
  | .jpV0 nnn => BitVec.ofNat 16 (nnn.toNat + (s.getV 0).toNat)
  | .seImm x kk => if s.getV x = kk then a + 4 else a + 2
  | .sneImm x kk => if s.getV x = kk then a + 2 else a + 4
  | .seReg x y => if s.getV x = s.getV y then a + 4 else a + 2
  | .sneReg x y => if s.getV x = s.getV y then a + 2 else a + 4
  | .skp x => if s.keys.getLsbD ((s.getV x).toNat % 16) then a + 4 else a + 2
  | .sknp x => if s.keys.getLsbD ((s.getV x).toNat % 16) then a + 2 else a + 4
  | .waitKey _ => if s.keys = 0 then a else a + 2
  | _ => a + 2

/-- The instructions that give VF a flag as a side effect (R22). -/
def setsFlag (c : Config) : Instr → Bool
  | .addReg _ _ | .subReg _ _ | .shr _ _ | .subn _ _ | .shl _ _ | .drw _ _ _ => true
  | .addIndex _ => decide (c.indexFlag = .on)
  | _ => false

/-- The general registers an instruction names as its destination. -/
def destination : Instr → Reg → Prop
  | .ldImm x _, j | .addImm x _, j | .ldReg x _, j | .orReg x _, j | .andReg x _, j | .xorReg x _, j
  | .addReg x _, j | .subReg x _, j | .shr x _, j | .subn x _, j | .shl x _, j | .rnd x _, j
  | .ldDelay x, j | .waitKey x, j => j = x
  | .loadRegs x, j => j ≤ x
  | _, _ => False

/-- The instructions that write I (R24). -/
def writesIndex : Instr → Bool
  | .ldIndex _ | .addIndex _ | .ldFont _ => true
  | _ => false

/-- The instructions that reach the stack (R29). -/
def usesStack : Instr → Bool
  | .call _ | .ret => true
  | _ => false

/-- The instructions that write FB (R213). -/
def writesScreen : Instr → Bool
  | .cls | .drw _ _ _ => true
  | _ => false

/-- The instructions that store to memory (R61). -/
def storesToMemory : Instr → Bool
  | .storeBcd _ | .storeRegs _ => true
  | _ => false

/-- Why an instruction fetched from `a` raises the record `f` in its execute phase (R252). -/
def ExecuteFaultCause (i : Instr) (s : State) (a : Word) (f : Fault) : Prop :=
  match i with
  | .drw _ _ n => ∃ k, k < n.toNat ∧ 0xFFF < s.i.toNat + k ∧ f = .boundsError (.memRead (s.i.toNat + k)) a
  | .loadRegs x => ∃ k, k ≤ x.val ∧ 0xFFF < s.i.toNat + k ∧ f = .boundsError (.memRead (s.i.toNat + k)) a
  | .storeBcd _ => ∃ k, k < 3 ∧ ¬ StoreAllowed s (s.i.toNat + k) ∧ f = .boundsError (.memWrite (s.i.toNat + k)) a
  | .storeRegs x =>
    ∃ k, k ≤ x.val ∧ ¬ StoreAllowed s (s.i.toNat + k) ∧ f = .boundsError (.memWrite (s.i.toNat + k)) a
  | .call _ => s.sp.val = 16 ∧ f = .boundsError .stackOverflow a
  | .ret => s.sp.val = 0 ∧ f = .boundsError .stackUnderflow a
  | _ => False

/-! ### Comparing runs -/

/-- Apply `g` to the next state of an answer, if it is one. -/
def mapNext (g : State → State) : Result → Result
  | .next t => .next (g t)
  | .fault f => .fault f
  | .refused r => .refused r

/-- The states agree but for the stack entries at SP and above, which "hold stale or reset values" (R30). -/
def SameButStale (s t : State) : Prop :=
  t = { s with stack := t.stack } ∧ ∀ k : Fin 16, k.val < s.sp.val → t.stack[k.val] = s.stack[k.val]

/-- The answers agree, the next states by `r`. -/
def SameAnswer (r : State → State → Prop) (a b : Result) : Prop :=
  match a, b with
  | .next s, .next t => r s t
  | .fault f, .fault g => f = g
  | .refused f, .refused g => f = g
  | _, _ => False

/-- Execute the calls of a list of targets one after the other. -/
def callAll : List Index → State → Result
  | [], s => .next s
  | nnn :: rest, s =>
    match exec (.call nnn) s with
    | .next t => callAll rest t
    | other => other

/-! ### Invariants -/

/-- Memory is in its canonical form. -/
def MemoryCanonical (s : State) : Prop := Memory.wf s.cfg.fontTable s.mem

/-- With `FONT_WRITE = FAULT` the font table reads as `FONT_TABLE` (R42, R64). -/
def FontIntact (s : State) : Prop :=
  s.cfg.fontWrite = .fault → ∀ k : Fin 80, s.readByte k.val = s.cfg.fontTable[k.val]

/-- PC is at most 0x10FE and every stack entry at most 0x1000 (R28: "PC values above `0xFFF` arise only from `Bnnn`
(up to `0x10FE`), from sequential advance or a skip past the last instruction (`0x1000`, `0x1002`), or from a
pushed-and-popped such value"). -/
def PcInRange (s : State) : Prop :=
  s.pc.toNat ≤ 0x10FE ∧ ∀ k : Fin 16, (s.stack[k.val]).toNat ≤ 0x1000

end Sys2Proof.Machine
end

