-- ==== Sys2Proof/Certificates/Slice0/Obligations.lean ====
section
/-! DEFINITION. The statements for the provers. Each docstring says which rules of the spec it formalises. In every
statement about `exec`, PC already equals `a + 2` (40_cycle.md rule R122). -/

open Sys2Proof Sys2Proof.Machine

/-! ### Encoding (30_encoding.md) -/

/-- R90 to R93, R96: every instruction, with every operand at every value, is read back from its bytes, and the bytes
after it are left over. -/
def Obligations.EncodedInstructionDecodesToItself : Prop :=
  ∀ (i : Instr) (rest : List Byte), decodeBytes (encodeBytes i ++ rest) = .ok (i, rest)

/-- R94, R98: a word that decodes is the encoding of what it decodes to, so no bit of an assigned word is ignored. -/
def Obligations.DecodedWordIsItsEncoding : Prop :=
  ∀ (op : Word) (i : Instr), decodeWord op = .ok i → encode i = op

/-- R96, R97: the assigned words are those that match a row of the opcode table, an instruction's word matches its own
row and no other, and every other word is unassigned. -/
def Obligations.AssignedWordsAreTheTableRows : Prop :=
  (∀ (op : Word) (i : Instr), decodeWord op = .ok i →
    ∀ r ∈ opcodeTable, r.matchesWord op = true ↔ r = i.row) ∧
  (∀ op : Word, (∀ r ∈ opcodeTable, r.matchesWord op = false) ↔ decodeWord op = .error (.unassigned op))

/-- R96: words written out bit by bit from the patterns, one of each family. -/
def Obligations.SampleWordsDecode : Prop :=
  decodeWord 0b0000000011100000#16 = .ok .cls ∧
  decodeWord 0b0001001000110100#16 = .ok (.jp 0x234) ∧
  decodeWord 0b0011101000000101#16 = .ok (.seImm 0xA 0x05) ∧
  decodeWord 0b1000000100100101#16 = .ok (.subReg 1 2) ∧
  decodeWord 0b1010001011110000#16 = .ok (.ldIndex 0x2F0) ∧
  decodeWord 0b1101000000010101#16 = .ok (.drw 0 1 5) ∧
  decodeWord 0b1110000110011110#16 = .ok (.skp 1) ∧
  decodeWord 0b1111001001010101#16 = .ok (.storeRegs 2) ∧
  decodeWord 0b0101000100100001#16 = .error (.unassigned 0x5121)

/-! ### The step (40_cycle.md) -/

/-- R120: with `RUN = RUNNING` and an assigned word at PC, a step is the execute phase of its instruction on the state
with PC advanced by 2. -/
def Obligations.StepRunsTheDecodedInstruction : Prop :=
  ∀ (s : State) (op : Word) (i : Instr), s.run = .running → WordAtPc s op → decodeWord op = .ok i →
    step s = exec i { s with pc := s.pc + 2 }

/-- R121: "If `PC > 0xFFF` the first read raises `BoundsError(kind = MemRead, addr = PC)`; if `PC = 0xFFF` the first
read succeeds and the second raises `BoundsError(kind = MemRead, addr = 0x1000)`"; below that the fetch reads the two
bytes at PC and PC + 1, whatever PC's parity. (That both records' `pc` is PC is R251, the spec's decision D31, and
assumption log 14.) -/
def Obligations.FetchChecksBounds : Prop :=
  (∀ s : State, s.run = .running → 0xFFF < s.pc.toNat →
    step s = .fault (.boundsError (.memRead s.pc.toNat) s.pc)) ∧
  (∀ s : State, s.run = .running → s.pc.toNat = 0xFFF → step s = .fault (.boundsError (.memRead 0x1000) s.pc)) ∧
  (∀ s : State, s.pc.toNat < 0xFFF →
    fetchWord s = .ok (s.readByte s.pc.toNat ++ s.readByte (s.pc.toNat + 1)))

/-- R97, R253: a step whose word matches no row of the table raises DecodeError with the word and its address. -/
def Obligations.UnassignedWordRaisesDecodeError : Prop :=
  ∀ (s : State) (op : Word), s.run = .running → WordAtPc s op →
    (∀ r ∈ opcodeTable, r.matchesWord op = false) → step s = .fault (.decodeError op s.pc)

/-- R125: a step is refused exactly when `RUN = FAULTED(record)`; no instruction is refused. -/
def Obligations.OnlyAFaultedMachineIsRefused : Prop :=
  ∀ (s : State) (r : Refusal),
    step s = .refused r ↔ ∃ record, s.run = .faulted record ∧ r = .stepAfterFault record

/-- R252, R253, R251, R250: every fault of a step has one of the listed causes, and its record names the address the
instruction was fetched from (that it names this address is R251, the spec's decision D31, and assumption log 14). -/
def Obligations.StepFaultsOnlyAsListed : Prop :=
  ∀ (s : State) (f : Fault), step s = .fault f → s.run = .running ∧
    ((∃ addr, (addr = s.pc.toNat ∨ addr = s.pc.toNat + 1) ∧ 0xFFF < addr ∧ f = .boundsError (.memRead addr) s.pc) ∨
     (∃ op, WordAtPc s op ∧ decodeWord op = .error (.unassigned op) ∧ f = .decodeError op s.pc) ∨
     (∃ op i, WordAtPc s op ∧ decodeWord op = .ok i ∧ ExecuteFaultCause i s s.pc f))

/-- R255, R257, R258 (the spec's decision D18; that the record is latched by the host's operation is assumption log
3): a faulting step writes nothing but `RUN <- FAULTED(record)`, and from then on every operation of the host but
`reset()` is outside its contract. -/
def Obligations.FaultCommitsNothingButRun : Prop :=
  ∀ (s : State) (f : Fault), step s = .fault f →
    hostDo .step s = .failed { s with run := .faulted f } f ∧
    ∀ op : HostOp, op ≠ .reset → ∃ why, hostDo op { s with run := .faulted f } = .outside why

/-- R127 (which the spec derives from R120 and R126; the counter of draws is assumption log 2): a step's answer depends
on the random source only for `Cxkk`. -/
def Obligations.OnlyRandomReadsTheDraw : Prop :=
  ∀ (i : Instr) (s : State) (d : Nat), (∀ x kk, i ≠ .rnd x kk) →
    exec i { s with draws := d } = mapNext (fun t => { t with draws := d }) (exec i s)

/-! ### Control flow (41_control_flow.md) -/

/-- R140, R251. (That the record's `pc` is `a` is the spec's decision D31 and assumption log 14, that the popped entry
stays in the array its decision D10.) -/
def Obligations.ReturnPopsProgramCounter : Prop :=
  EncodedAs 0x00EE 0xFFFF (fun _ => .ret) ∧
  (∀ (s : State) (a : Word), s.pc = a + 2 → s.sp.val = 0 →
    exec .ret s = .fault (.boundsError .stackUnderflow a)) ∧
  (∀ s : State, 0 < s.sp.val → ∃ t, exec .ret s = .next t ∧
    t.pc = topEntry s ∧ t.sp.val = s.sp.val - 1 ∧ SameMemory s t ∧ t = { s with pc := t.pc, sp := t.sp })

/-- R141. -/
def Obligations.JumpSetsProgramCounter : Prop :=
  EncodedAs 0x1000 0xF000 (fun op => .jp (fieldNnn op)) ∧
  ∀ (nnn : Index) (s : State), ∃ t, exec (.jp nnn) s = .next t ∧ t.pc.toNat = nnn.toNat ∧ OnlyPc s t

/-- R142, R251. (That the record's `pc` is `a` is the spec's decision D31 and assumption log 14, the stack as an array
with SP counting its entries is its decision D10.) -/
def Obligations.CallPushesReturnAddress : Prop :=
  EncodedAs 0x2000 0xF000 (fun op => .call (fieldNnn op)) ∧
  (∀ (nnn : Index) (s : State) (a : Word), s.pc = a + 2 → s.sp.val = 16 →
    exec (.call nnn) s = .fault (.boundsError .stackOverflow a)) ∧
  (∀ (nnn : Index) (s : State), s.sp.val < 16 → ∃ t, exec (.call nnn) s = .next t ∧
    t.pc.toNat = nnn.toNat ∧ t.sp.val = s.sp.val + 1 ∧
    (∀ k : Fin 16, t.stack[k.val] = if k.val = s.sp.val then s.pc else s.stack[k.val]) ∧
    SameMemory s t ∧ t = { s with pc := t.pc, sp := t.sp, stack := t.stack })

/-- R143; that the sum is not reduced modulo 4096 is the spec's decision D29. -/
def Obligations.JumpWithOffsetAddsV0 : Prop :=
  EncodedAs 0xB000 0xF000 (fun op => .jpV0 (fieldNnn op)) ∧
  ∀ (nnn : Index) (s : State), ∃ t, exec (.jpV0 nnn) s = .next t ∧
    t.pc.toNat = nnn.toNat + (s.getV 0).toNat ∧ OnlyPc s t

/-- R144, R145. -/
def Obligations.SkipsCompareWithImmediate : Prop :=
  EncodedAs 0x3000 0xF000 (fun op => .seImm (fieldX op) (fieldKk op)) ∧
  EncodedAs 0x4000 0xF000 (fun op => .sneImm (fieldX op) (fieldKk op)) ∧
  ∀ (x : Reg) (kk : Byte) (s : State) (a : Word), s.pc = a + 2 →
    (∃ t, exec (.seImm x kk) s = .next t ∧ t.pc = (if s.getV x = kk then a + 4 else a + 2) ∧ OnlyPc s t) ∧
    (∃ t, exec (.sneImm x kk) s = .next t ∧ t.pc = (if s.getV x ≠ kk then a + 4 else a + 2) ∧ OnlyPc s t)

/-- R146, R147. -/
def Obligations.SkipsCompareRegisters : Prop :=
  EncodedAs 0x5000 0xF00F (fun op => .seReg (fieldX op) (fieldY op)) ∧
  EncodedAs 0x9000 0xF00F (fun op => .sneReg (fieldX op) (fieldY op)) ∧
  ∀ (x y : Reg) (s : State) (a : Word), s.pc = a + 2 →
    (∃ t, exec (.seReg x y) s = .next t ∧ t.pc = (if s.getV x = s.getV y then a + 4 else a + 2) ∧ OnlyPc s t) ∧
    (∃ t, exec (.sneReg x y) s = .next t ∧ t.pc = (if s.getV x ≠ s.getV y then a + 4 else a + 2) ∧ OnlyPc s t)

/-- R27: PC after every instruction that completes. -/
def Obligations.ProgramCounterAfterEveryInstruction : Prop :=
  ∀ (i : Instr) (s t : State) (a : Word), s.pc = a + 2 → exec i s = .next t → t.pc = pcAfter i s a

/-- R148 (derived in the spec), R31, R32: a return after a call resumes after the call, with everything as it was but
for the stack entry left in place. -/
def Obligations.ReturnUndoesCall : Prop :=
  ∀ (nnn : Index) (s t : State) (w : Word), exec (.call nnn) s = .next t →
    ∃ u, exec .ret { t with pc := w } = .next u ∧ u.pc = s.pc ∧ u.sp = s.sp ∧ SameButStale s u

/-- R31: "16 consecutive `2nnn` calls succeed; a 17th fails": a list of calls completes exactly if it fits in what the
stack has free, and else it ends in a stack overflow. -/
def Obligations.CallsSucceedUntilTheStackIsFull : Prop :=
  ∀ (targets : List Index) (s : State),
    (s.sp.val + targets.length ≤ 16 → ∃ t, callAll targets s = .next t ∧ t.sp.val = s.sp.val + targets.length) ∧
    (16 < s.sp.val + targets.length → ∃ pc, callAll targets s = .fault (.boundsError .stackOverflow pc))

/-- R30 (the stack's layout is the spec's decision D10): entries at index SP and above are read by no instruction: two
states that differ only there answer alike. -/
def Obligations.StaleStackEntriesAreNeverRead : Prop :=
  ∀ s t : State, SameButStale s t → SameAnswer SameButStale (step s) (step t)

/-! ### Load, arithmetic, logic, random (42_load_alu.md) -/

/-- R165, R166. -/
def Obligations.ImmediateFormsWriteOneRegister : Prop :=
  EncodedAs 0x6000 0xF000 (fun op => .ldImm (fieldX op) (fieldKk op)) ∧
  EncodedAs 0x7000 0xF000 (fun op => .addImm (fieldX op) (fieldKk op)) ∧
  ∀ (x : Reg) (kk : Byte) (s : State),
    (∃ t, exec (.ldImm x kk) s = .next t ∧ t.getV x = kk ∧ OnlyRegs (· = x) s t) ∧
    (∃ t, exec (.addImm x kk) s = .next t ∧ (t.getV x).toNat = ((s.getV x).toNat + kk.toNat) % 256 ∧
      OnlyRegs (· = x) s t)

/-- R167 to R170: VF is written only as the destination (for `8xy1` to `8xy3` the spec's decision D12). -/
def Obligations.CopyAndLogicLeaveTheFlag : Prop :=
  EncodedAs 0x8000 0xF00F (fun op => .ldReg (fieldX op) (fieldY op)) ∧
  EncodedAs 0x8001 0xF00F (fun op => .orReg (fieldX op) (fieldY op)) ∧
  EncodedAs 0x8002 0xF00F (fun op => .andReg (fieldX op) (fieldY op)) ∧
  EncodedAs 0x8003 0xF00F (fun op => .xorReg (fieldX op) (fieldY op)) ∧
  ∀ (x y : Reg) (s : State),
    (∃ t, exec (.ldReg x y) s = .next t ∧ t.getV x = s.getV y ∧ OnlyRegs (· = x) s t) ∧
    (∃ t, exec (.orReg x y) s = .next t ∧ t.getV x = (s.getV x ||| s.getV y) ∧ OnlyRegs (· = x) s t) ∧
    (∃ t, exec (.andReg x y) s = .next t ∧ t.getV x = (s.getV x &&& s.getV y) ∧ OnlyRegs (· = x) s t) ∧
    (∃ t, exec (.xorReg x y) s = .next t ∧ t.getV x = (s.getV x ^^^ s.getV y) ∧ OnlyRegs (· = x) s t)

/-- R171: the sum modulo 256, and VF is the carry, written last (the order, which shows for `x = 15`, is the spec's
decision D11, R161). -/
def Obligations.AddSetsCarry : Prop :=
  EncodedAs 0x8004 0xF00F (fun op => .addReg (fieldX op) (fieldY op)) ∧
  ∀ (x y : Reg) (s : State), ∃ t, exec (.addReg x y) s = .next t ∧
    (x ≠ 15 → (t.getV x).toNat = ((s.getV x).toNat + (s.getV y).toNat) % 256) ∧
    t.getV 15 = (if 255 < (s.getV x).toNat + (s.getV y).toNat then 1 else 0) ∧
    OnlyRegs (fun j => j = x ∨ j = 15) s t

/-- R172, R174, R160: the difference modulo 256, and VF is NOT borrow, written last (the order is the spec's decision
D11, R161). -/
def Obligations.SubtractSetsNotBorrow : Prop :=
  EncodedAs 0x8005 0xF00F (fun op => .subReg (fieldX op) (fieldY op)) ∧
  EncodedAs 0x8007 0xF00F (fun op => .subn (fieldX op) (fieldY op)) ∧
  ∀ (x y : Reg) (s : State),
    (∃ t, exec (.subReg x y) s = .next t ∧
      (x ≠ 15 → (t.getV x).toNat = ((s.getV x).toNat + 256 - (s.getV y).toNat) % 256) ∧
      t.getV 15 = (if (s.getV y).toNat ≤ (s.getV x).toNat then 1 else 0) ∧
      OnlyRegs (fun j => j = x ∨ j = 15) s t) ∧
    (∃ t, exec (.subn x y) s = .next t ∧
      (x ≠ 15 → (t.getV x).toNat = ((s.getV y).toNat + 256 - (s.getV x).toNat) % 256) ∧
      t.getV 15 = (if (s.getV x).toNat ≤ (s.getV y).toNat then 1 else 0) ∧
      OnlyRegs (fun j => j = x ∨ j = 15) s t)

/-- R173, R175, for both values of `SHIFT_SOURCE`: the operand halved or doubled modulo 256, and VF is the bit shifted
out, written last (the order is the spec's decision D11, R161). -/
def Obligations.ShiftsSetTheBitShiftedOut : Prop :=
  EncodedAs 0x8006 0xF00F (fun op => .shr (fieldX op) (fieldY op)) ∧
  EncodedAs 0x800E 0xF00F (fun op => .shl (fieldX op) (fieldY op)) ∧
  ∀ (x y : Reg) (s : State) (b : Byte), b = (if s.cfg.shiftSource = .vx then s.getV x else s.getV y) →
    (∃ t, exec (.shr x y) s = .next t ∧ (x ≠ 15 → (t.getV x).toNat = b.toNat / 2) ∧
      (t.getV 15).toNat = b.toNat % 2 ∧ OnlyRegs (fun j => j = x ∨ j = 15) s t) ∧
    (∃ t, exec (.shl x y) s = .next t ∧ (x ≠ 15 → (t.getV x).toNat = b.toNat * 2 % 256) ∧
      (t.getV 15).toNat = b.toNat / 128 ∧ OnlyRegs (fun j => j = x ∨ j = 15) s t)

/-- R177, for whatever byte is drawn: the destination is the drawn byte masked with `kk`, so it has no bit outside
`kk`, and the next draw is a fresh one. (That draws are numbered by a counter is the model's choice, assumption
log 2.) -/
def Obligations.RandomIsADrawMasked : Prop :=
  EncodedAs 0xC000 0xF000 (fun op => .rnd (fieldX op) (fieldKk op)) ∧
  ∀ (x : Reg) (kk : Byte) (s : State), ∃ t, exec (.rnd x kk) s = .next t ∧
    t.getV x = (Config.freeDraw s.draws &&& kk) ∧ (t.getV x &&& ~~~kk) = 0 ∧ t.draws = s.draws + 1 ∧
    (∀ j : Reg, j ≠ x → t.getV j = s.getV j) ∧ SameMemory s t ∧ t = { s with v := t.v, draws := t.draws }

/-- R22: an instruction writes VF only as a flag, then with the full byte 0 or 1, or as its named destination. -/
def Obligations.FlagIsWrittenOnlyAsListed : Prop :=
  ∀ (i : Instr) (s t : State), exec i s = .next t →
    (setsFlag s.cfg i = true → t.getV 15 = 0 ∨ t.getV 15 = 1) ∧
    (setsFlag s.cfg i = false → ¬ destination i 15 → t.getV 15 = s.getV 15)

/-- R20, R21, R24, R29, R37, R213: which element of state each instruction may write. (The last two clauses are about
the model's own fields, assumption logs 1 and 5.) -/
def Obligations.EachElementHasItsWriters : Prop :=
  ∀ (i : Instr) (s t : State), exec i s = .next t →
    (∀ j : Reg, ¬ destination i j → j ≠ 15 → t.getV j = s.getV j) ∧
    (writesIndex i = false → t.i = s.i) ∧
    (usesStack i = false → t.stack = s.stack ∧ t.sp = s.sp) ∧
    ((∀ x, i ≠ .setDelay x) → t.dt = s.dt) ∧ ((∀ x, i ≠ .setSound x) → t.st = s.st) ∧
    (writesScreen i = false → ∀ x y, pixelAt t x y = pixelAt s x y) ∧
    (storesToMemory i = false → SameMemory s t) ∧
    t.keys = s.keys ∧ t.run = s.run ∧ t.cfg = s.cfg ∧ t.boot = s.boot

/-! ### Index register and memory (43_index_memory.md, 20_memory.md) -/

/-- R190, R192; that the formula of R192 is unmasked above 15 is the spec's decision D27. -/
def Obligations.IndexLoads : Prop :=
  EncodedAs 0xA000 0xF000 (fun op => .ldIndex (fieldNnn op)) ∧
  EncodedAs 0xF029 0xF0FF (fun op => .ldFont (fieldX op)) ∧
  (∀ (nnn : Index) (s : State), ∃ t, exec (.ldIndex nnn) s = .next t ∧ t.i = nnn ∧ OnlyIndex s t) ∧
  (∀ (x : Reg) (s : State), ∃ t, exec (.ldFont x) s = .next t ∧ t.i.toNat = (s.getV x).toNat * 5 ∧ OnlyIndex s t)

/-- R191, for both values of `FX1E_VF`. -/
def Obligations.AddToIndexWraps : Prop :=
  EncodedAs 0xF01E 0xF0FF (fun op => .addIndex (fieldX op)) ∧
  ∀ (x : Reg) (s : State), ∃ t, exec (.addIndex x) s = .next t ∧
    t.i.toNat = (s.i.toNat + (s.getV x).toNat) % 4096 ∧
    (s.cfg.indexFlag = .off → OnlyIndex s t) ∧
    (s.cfg.indexFlag = .on → t.getV 15 = (if 0xFFF < s.i.toNat + (s.getV x).toNat then 1 else 0) ∧
      (∀ j : Reg, j ≠ 15 → t.getV j = s.getV j) ∧ SameMemory s t ∧ t = { s with i := t.i, v := t.v })

/-- R193, R251: the three decimal digits at I, I+1, I+2, or a BoundsError for the first address that may not be stored
to. (That the record's `pc` is `a` is the spec's decision D31 and assumption log 14.) -/
def Obligations.StoreDecimalDigits : Prop :=
  EncodedAs 0xF033 0xF0FF (fun op => .storeBcd (fieldX op)) ∧
  (∀ (x : Reg) (s : State), (∀ k < 3, StoreAllowed s (dataBase s + k)) →
    ∃ t, exec (.storeBcd x) s = .next t ∧ OnlyBytes (dataBase s) 3 s t ∧
      (MemoryCanonical s →
        (t.readByte (dataBase s)).toNat = (s.getV x).toNat / 100 ∧
        (t.readByte (dataBase s + 1)).toNat = (s.getV x).toNat / 10 % 10 ∧
        (t.readByte (dataBase s + 2)).toNat = (s.getV x).toNat % 10)) ∧
  (∀ (x : Reg) (s : State) (a : Word) (k : Nat), s.pc = a + 2 → k < 3 →
    (∀ j < k, StoreAllowed s (dataBase s + j)) → ¬ StoreAllowed s (dataBase s + k) →
    exec (.storeBcd x) s = .fault (.boundsError (.memWrite (dataBase s + k)) a))

/-- R194 (that I stays is the spec's decision D13), R251: V0 to Vx at I, I+1, …, or a BoundsError for the lowest
address that may not be stored to. (That the record's `pc` is `a` is the spec's decision D31 and assumption log 14.) -/
def Obligations.StoreRegisterBlock : Prop :=
  EncodedAs 0xF055 0xF0FF (fun op => .storeRegs (fieldX op)) ∧
  (∀ (x : Reg) (s : State), (∀ k ≤ x.val, StoreAllowed s (dataBase s + k)) →
    ∃ t, exec (.storeRegs x) s = .next t ∧ OnlyBytes (dataBase s) (x.val + 1) s t ∧
      (MemoryCanonical s → ∀ k : Reg, k ≤ x → t.readByte (dataBase s + k.val) = s.getV k)) ∧
  (∀ (x : Reg) (s : State) (a : Word) (k : Nat), s.pc = a + 2 → k ≤ x.val →
    (∀ j < k, StoreAllowed s (dataBase s + j)) → ¬ StoreAllowed s (dataBase s + k) →
    exec (.storeRegs x) s = .fault (.boundsError (.memWrite (dataBase s + k)) a))

/-- R195 (that I stays is the spec's decision D13), R251: V0 to Vx from I, I+1, …, or a BoundsError for the lowest
address above 0xFFF. (That the record's `pc` is `a` is the spec's decision D31 and assumption log 14.) -/
def Obligations.LoadRegisterBlock : Prop :=
  EncodedAs 0xF065 0xF0FF (fun op => .loadRegs (fieldX op)) ∧
  (∀ (x : Reg) (s : State), dataBase s + x.val ≤ 0xFFF → ∃ t, exec (.loadRegs x) s = .next t ∧
    (∀ k : Reg, k ≤ x → t.getV k = s.readByte (dataBase s + k.val)) ∧ OnlyRegs (· ≤ x) s t) ∧
  (∀ (x : Reg) (s : State) (a : Word) (k : Nat), s.pc = a + 2 → k ≤ x.val →
    (∀ j < k, dataBase s + j ≤ 0xFFF) → 0xFFF < dataBase s + k →
    exec (.loadRegs x) s = .fault (.boundsError (.memRead (dataBase s + k)) a))

/-- R194, R195, R70: a register block stored and loaded back from the same place gives V0 to Vx the stored values,
whatever the registers held in between. -/
def Obligations.LoadAfterStoreRestoresRegisters : Prop :=
  ∀ (x : Reg) (s t : State) (w : Vector Byte 16), MemoryCanonical s → exec (.storeRegs x) s = .next t →
    ∃ u, exec (.loadRegs x) { t with v := w } = .next u ∧ ∀ k : Reg, k ≤ x → u.getV k = s.getV k

/-- R73 (derived in the spec), R65: bytes stored where the next instruction is fetched from are what the next fetch
reads. -/
def Obligations.StoredWordIsFetchedNext : Prop :=
  ∀ (x : Reg) (s t : State), MemoryCanonical s → 1 ≤ x.val → dataBase s = s.pc.toNat →
    exec (.storeRegs x) s = .next t → fetchWord t = .ok (s.getV 0 ++ s.getV 1)

/-! ### Display (44_display.md) -/

/-- R210. -/
def Obligations.ClearUnsetsEveryPixel : Prop :=
  EncodedAs 0x00E0 0xFFFF (fun _ => .cls) ∧
  ∀ s : State, ∃ t, exec .cls s = .next t ∧ (∀ x y, pixelAt t x y = false) ∧ SameMemory s t ∧ t = { s with fb := t.fb }

/-- R211, for both values of `DRAW_EDGE`, and R212 (that bit 7 is the leftmost pixel is the spec's decision D7, that
`n = 0` draws nothing D30): a draw toggles exactly the screen pixels that a 1-bit of the sprite lands
on; VF is 1 if one of them was set and 0 otherwise; a sprite that leaves the memory raises BoundsError. (That the
record's `pc` is `a` is R251, the spec's decision D31, and assumption log 14.) -/
def Obligations.DrawTogglesTheCoveredPixels : Prop :=
  EncodedAs 0xD000 0xF000 (fun op => .drw (fieldX op) (fieldY op) (fieldN op)) ∧
  (∀ (x y : Reg) (n : Nibble) (s : State), (∀ r < n.toNat, s.i.toNat + r ≤ 0xFFF) →
    ∃ t, exec (.drw x y n) s = .next t ∧
      (∀ px py, SpriteCovers s x y n px py → pixelAt t px py = !pixelAt s px py) ∧
      (∀ px py, ¬ SpriteCovers s x y n px py → pixelAt t px py = pixelAt s px py) ∧
      ((∃ px py, SpriteCovers s x y n px py ∧ pixelAt s px py = true) → t.getV 15 = 1) ∧
      ((∀ px py, SpriteCovers s x y n px py → pixelAt s px py = false) → t.getV 15 = 0) ∧
      (∀ j : Reg, j ≠ 15 → t.getV j = s.getV j) ∧ SameMemory s t ∧ t = { s with v := t.v, fb := t.fb }) ∧
  (∀ (x y : Reg) (n : Nibble) (s : State) (a : Word) (k : Nat), s.pc = a + 2 → k < n.toNat →
    (∀ r < k, s.i.toNat + r ≤ 0xFFF) → 0xFFF < s.i.toNat + k →
    exec (.drw x y n) s = .fault (.boundsError (.memRead (s.i.toNat + k)) a))

/-- R211: "drawing the same sprite twice at the same location returns the framebuffer to its pre-draw state (XOR
idempotence) and the second call's collision flag is true wherever the first draw set a pixel". -/
def Obligations.DrawingTwiceRestoresTheScreen : Prop :=
  ∀ (x y : Reg) (n : Nibble) (s t u : State), exec (.drw x y n) s = .next t →
    exec (.drw x y n) { t with v := s.v } = .next u →
    (∀ px py, pixelAt u px py = pixelAt s px py) ∧
    ((∃ px py, pixelAt s px py = false ∧ pixelAt t px py = true) → u.getV 15 = 1)

/-! ### Keypad and timers (45_keypad_timers.md, 10_state.md) -/

/-- R230, R231, R236: the key tested is the low nibble of Vx (the spec's decision D14). -/
def Obligations.SkipsTestTheSelectedKey : Prop :=
  EncodedAs 0xE09E 0xF0FF (fun op => .skp (fieldX op)) ∧
  EncodedAs 0xE0A1 0xF0FF (fun op => .sknp (fieldX op)) ∧
  ∀ (x : Reg) (s : State) (a : Word) (k : Key), s.pc = a + 2 → k.val = (s.getV x).toNat % 16 →
    (∃ t, exec (.skp x) s = .next t ∧ (KeyDown s k → t.pc = a + 4) ∧ (¬ KeyDown s k → t.pc = a + 2) ∧ OnlyPc s t) ∧
    (∃ t, exec (.sknp x) s = .next t ∧ (KeyDown s k → t.pc = a + 2) ∧ (¬ KeyDown s k → t.pc = a + 4) ∧ OnlyPc s t)

/-- R232 (level and lowest key are the spec's decision D15): with no key down PC goes back to the instruction and
nothing else changes; else Vx is the lowest pressed key's code, and PC stays `a + 2`. -/
def Obligations.WaitKeyStallsOrTakesTheLowestKey : Prop :=
  EncodedAs 0xF00A 0xF0FF (fun op => .waitKey (fieldX op)) ∧
  (∀ (x : Reg) (s : State) (a : Word), s.pc = a + 2 → (∀ k, ¬ KeyDown s k) →
    ∃ t, exec (.waitKey x) s = .next t ∧ t.pc = a ∧ OnlyPc s t) ∧
  (∀ (x : Reg) (s : State) (k : Key), KeyDown s k → (∀ j < k, ¬ KeyDown s j) →
    ∃ t, exec (.waitKey x) s = .next t ∧ (t.getV x).toNat = k.val ∧ OnlyRegs (· = x) s t)

/-- R232, R124, R262: a step of a stalled `Fx0A` changes nothing, and the host's ticks between such steps go on.
(That the host's step ends the time for `load_rom` is said in the model's own field, assumption log 5.) -/
def Obligations.StalledWaitIsAStepThatChangesNothing : Prop :=
  ∀ (s : State) (op : Word) (x : Reg), s.run = .running → s.keys = 0 → WordAtPc s op →
    decodeWord op = .ok (.waitKey x) →
    step s = .next s ∧ hostRun [.step, .tickTimers, .step] s = some (tickTimers s).beginRun

/-- R233, R234, R235. -/
def Obligations.TimerInstructionsMoveTimers : Prop :=
  EncodedAs 0xF007 0xF0FF (fun op => .ldDelay (fieldX op)) ∧
  EncodedAs 0xF015 0xF0FF (fun op => .setDelay (fieldX op)) ∧
  EncodedAs 0xF018 0xF0FF (fun op => .setSound (fieldX op)) ∧
  ∀ (x : Reg) (s : State),
    (∃ t, exec (.ldDelay x) s = .next t ∧ t.getV x = s.dt ∧ OnlyRegs (· = x) s t) ∧
    (∃ t, exec (.setDelay x) s = .next t ∧ t.dt = s.getV x ∧ SameMemory s t ∧ t = { s with dt := t.dt }) ∧
    (∃ t, exec (.setSound x) s = .next t ∧ t.st = s.getV x ∧ (soundActive t = true ↔ 0 < (s.getV x).toNat) ∧
      SameMemory s t ∧ t = { s with st := t.st })

/-- R33: "No instruction reads `ST`": but for the instruction that sets it, a step does not depend on ST. -/
def Obligations.NoInstructionReadsSoundTimer : Prop :=
  ∀ (i : Instr) (s : State) (b : Byte), (∀ x, i ≠ .setSound x) →
    exec i { s with st := b } = mapNext (fun t => { t with st := b }) (exec i s)

/-- R34, R35: any number of ticks counts both timers down to zero and no further, changes nothing else, and the sound is
active while ST is above zero. -/
def Obligations.TicksCountDownToZero : Prop :=
  ∀ (n : Nat) (s : State), s.run = .running →
    ∃ t, hostRun (List.replicate n .tickTimers) s = some t ∧
      t.dt.toNat = s.dt.toNat - n ∧ t.st.toNat = s.st.toNat - n ∧
      (soundActive t = true ↔ n < s.st.toNat) ∧ SameMemory s t ∧ t = { s with dt := t.dt, st := t.st }

/-! ### Reset and the host's operations (10_state.md, 60_exceptions.md, 70_reset_and_hazards.md) -/

/-- R45, R290 (the zero values are the spec's decision D20): after `reset()`, from any state, every element is at its
reset value. (The last two clauses are about the model's own fields, assumption logs 1 and 5.) -/
def Obligations.ResetSetsEveryElement : Prop :=
  ∀ s : State, ∃ t, hostDo .reset s = .done t ∧
    (∀ x : Reg, t.getV x = 0) ∧ t.i = 0 ∧ t.pc = 0x0200 ∧ (∀ k : Fin 16, t.stack[k.val] = 0) ∧ t.sp = 0 ∧
    t.dt = 0 ∧ t.st = 0 ∧ (∀ x y, pixelAt t x y = false) ∧ t.keys = 0 ∧
    (∀ k : Fin 80, t.readByte k.val = s.cfg.fontTable[k.val]) ∧ (∀ a, 0x050 ≤ a → t.readByte a = 0) ∧
    t.run = .running ∧ t.cfg = s.cfg ∧ t.boot = .awaitingRom

/-- R69, R254, R270, R292: after `reset()` and before the first step, an image of 1 to 3584 bytes is copied verbatim to
0x200 and up and nothing else changes; any other is rejected and nothing is written (the empty image is the spec's
decision D21, 90_conflicts.md C7). After the first step or a second time `load_rom` has no move (decision D21; that the
time for it is a field of State is the model's choice, assumption log 5, and so is the refusal's name, log 4). -/
def Obligations.LoadRomCopiesTheImageOrRejectsIt : Prop :=
  (∀ (s : State) (bytes : List Byte), s.run = .running → s.boot = .awaitingRom →
    0 < bytes.length → bytes.length ≤ 3584 →
    ∃ t, hostDo (.loadRom bytes) s = .done t ∧ SameMemoryOutside 0x200 bytes.length s t ∧
      t = { s with mem := t.mem, boot := .underway } ∧
      (MemoryCanonical s → ∀ (k : Nat) (h : k < bytes.length), t.readByte (0x200 + k) = bytes[k])) ∧
  (∀ (s : State) (bytes : List Byte), s.run = .running → s.boot = .awaitingRom →
    bytes.length = 0 ∨ 3584 < bytes.length → hostDo (.loadRom bytes) s = .failed s (.romLoadError bytes.length)) ∧
  (∀ (s : State) (bytes : List Byte), s.run = .running → s.boot = .underway →
    hostDo (.loadRom bytes) s = .outside .loadOutOfTurn)

/-- R37, R270: `set_key` sets the one bit and leaves every other element alone; a code above 15 is outside the
contract (the spec's decision D26). -/
def Obligations.SetKeyChangesOneKey : Prop :=
  (∀ (s : State) (k : Key) (pressed : Bool), s.run = .running →
    ∃ t, hostDo (.setKey k.val pressed) s = .done t ∧
      (∀ j : Key, KeyDown t j ↔ if j = k then pressed = true else KeyDown s j) ∧
      SameMemory s t ∧ t = { s with keys := t.keys }) ∧
  (∀ (s : State) (code : Nat) (pressed : Bool), 15 < code → ∃ why, hostDo (.setKey code pressed) s = .outside why)

/-- R296 (the spec's convention D25): a `1nnn` stored at address `nnn` leaves the whole state unchanged at every step.
-/
def Obligations.JumpToSelfIsStable : Prop :=
  ∀ (s : State) (nnn : Index) (op : Word), s.run = .running → s.pc.toNat = nnn.toNat → WordAtPc s op →
    decodeWord op = .ok (.jp nnn) → step s = .next s

/-! ### Invariants -/

/-- Every step and every operation of the host keeps memory in its canonical form (the model's own, assumption log 8).
-/
def Obligations.CanonicalMemoryIsKept : Prop :=
  (∀ s t : State, MemoryCanonical s → step s = .next t → MemoryCanonical t) ∧
  (∀ (op : HostOp) (s t : State), MemoryCanonical s → (hostDo op s).state? = some t → MemoryCanonical t)

/-- R42, R64 (the spec's decision D17): with `FONT_WRITE = FAULT` the font table keeps its content through every step
and every operation of the host. -/
def Obligations.FontTableStaysIntact : Prop :=
  (∀ s t : State, FontIntact s → step s = .next t → FontIntact t) ∧
  (∀ (op : HostOp) (s t : State), FontIntact s → (hostDo op s).state? = some t → FontIntact t)

/-- R28 (derived in the spec): PC stays at most 0x10FE and every stack entry at most 0x1000, so "the 16-bit wrap at
`0xFFFF` is unreachable". -/
def Obligations.ProgramCounterStaysInRange : Prop :=
  (∀ s t : State, PcInRange s → step s = .next t → PcInRange t) ∧
  (∀ (op : HostOp) (s t : State), PcInRange s → (hostDo op s).state? = some t → PcInRange t)

/-- The three invariants hold after reset, for every value of the parameters. -/
def Obligations.ResetMeetsTheInvariants : Prop :=
  ∀ (c : Config) (d : Nat),
    MemoryCanonical (State.resetWith c d) ∧ FontIntact (State.resetWith c d) ∧ PcInRange (State.resetWith c d) ∧
    State.reset = State.resetWith defaultConfig 0

/-! ### The boot sequence -/

/-- R270, R292: once a step has been taken or an image loaded, `load_rom` has no move, whatever operations other than
`reset()` come between (the spec's decision D21, 93_implementation_defined.md U8; the refusal is assumption log 4, the
field that records the boot sequence log 5). -/
def Obligations.LoadRomHasNoMoveOnceTheRunHasBegun : Prop :=
  ∀ (op : HostOp) (ops : List HostOp) (s t u : State) (bytes : List Byte),
    (op = .step ∨ ∃ image, op = .loadRom image) → hostDo op s = .done t → (∀ o ∈ ops, o ≠ .reset) →
    hostRun ops t = some u → ∃ why, hostDo (.loadRom bytes) u = .outside why
end

