-- ==== Sys2Proof/Laws/Decode.lean ====
section
/-! SUPPORT. The fields of a word written in a format (30_encoding.md rules R91, R92), and a word from its fields. -/

namespace Sys2Proof

theorem regBits_toFin (b : Nibble) : regBits b.toFin = b := rfl
theorem toFin_regBits (x : Reg) : (regBits x).toFin = x := rfl

/-! ### Each field of each format -/

@[simp] theorem fieldN1_formatNnn (h : Nibble) (nnn : Index) : fieldN1 (formatNnn h nnn) = h := by
  apply BitVec.eq_of_getLsbD_eq
  intro i hi
  simp only [fieldN1, formatNnn, BitVec.getLsbD_extractLsb', BitVec.getLsbD_append]
  interval_cases i <;> simp

@[simp] theorem fieldNnn_formatNnn (h : Nibble) (nnn : Index) : fieldNnn (formatNnn h nnn) = nnn := by
  apply BitVec.eq_of_getLsbD_eq
  intro i hi
  simp only [fieldNnn, formatNnn, BitVec.getLsbD_extractLsb', BitVec.getLsbD_append]
  interval_cases i <;> simp

@[simp] theorem fieldN1_formatXkk (h : Nibble) (x : Reg) (kk : Byte) : fieldN1 (formatXkk h x kk) = h := by
  apply BitVec.eq_of_getLsbD_eq
  intro i hi
  simp only [fieldN1, formatXkk, BitVec.getLsbD_extractLsb', BitVec.getLsbD_append]
  interval_cases i <;> simp

@[simp] theorem fieldX_formatXkk (h : Nibble) (x : Reg) (kk : Byte) : fieldX (formatXkk h x kk) = x := by
  have h0 : (formatXkk h x kk).extractLsb' 8 4 = regBits x := by
    apply BitVec.eq_of_getLsbD_eq
    intro i hi
    simp only [formatXkk, BitVec.getLsbD_extractLsb', BitVec.getLsbD_append]
    interval_cases i <;> simp
  rw [fieldX, h0, toFin_regBits]

@[simp] theorem fieldKk_formatXkk (h : Nibble) (x : Reg) (kk : Byte) : fieldKk (formatXkk h x kk) = kk := by
  apply BitVec.eq_of_getLsbD_eq
  intro i hi
  simp only [fieldKk, formatXkk, BitVec.getLsbD_extractLsb', BitVec.getLsbD_append]
  interval_cases i <;> simp

@[simp] theorem fieldN1_formatXyn (h : Nibble) (x y : Reg) (n : Nibble) : fieldN1 (formatXyn h x y n) = h := by
  apply BitVec.eq_of_getLsbD_eq
  intro i hi
  simp only [fieldN1, formatXyn, BitVec.getLsbD_extractLsb', BitVec.getLsbD_append]
  interval_cases i <;> simp

@[simp] theorem fieldX_formatXyn (h : Nibble) (x y : Reg) (n : Nibble) : fieldX (formatXyn h x y n) = x := by
  have h0 : (formatXyn h x y n).extractLsb' 8 4 = regBits x := by
    apply BitVec.eq_of_getLsbD_eq
    intro i hi
    simp only [formatXyn, BitVec.getLsbD_extractLsb', BitVec.getLsbD_append]
    interval_cases i <;> simp
  rw [fieldX, h0, toFin_regBits]

@[simp] theorem fieldY_formatXyn (h : Nibble) (x y : Reg) (n : Nibble) : fieldY (formatXyn h x y n) = y := by
  have h0 : (formatXyn h x y n).extractLsb' 4 4 = regBits y := by
    apply BitVec.eq_of_getLsbD_eq
    intro i hi
    simp only [formatXyn, BitVec.getLsbD_extractLsb', BitVec.getLsbD_append]
    interval_cases i <;> simp
  rw [fieldY, h0, toFin_regBits]

@[simp] theorem fieldN_formatXyn (h : Nibble) (x y : Reg) (n : Nibble) : fieldN (formatXyn h x y n) = n := by
  apply BitVec.eq_of_getLsbD_eq
  intro i hi
  simp only [fieldN, formatXyn, BitVec.getLsbD_extractLsb', BitVec.getLsbD_append]
  interval_cases i <;> simp

/-! ### A word from its fields -/

theorem formatXyn_fields (op : Word) : formatXyn (fieldN1 op) (fieldX op) (fieldY op) (fieldN op) = op := by
  apply BitVec.eq_of_getLsbD_eq
  intro i hi
  simp only [formatXyn, fieldN1, fieldX, fieldY, fieldN, regBits_toFin, BitVec.getLsbD_extractLsb',
    BitVec.getLsbD_append]
  interval_cases i <;> simp

theorem formatXkk_fields (op : Word) : formatXkk (fieldN1 op) (fieldX op) (fieldKk op) = op := by
  apply BitVec.eq_of_getLsbD_eq
  intro i hi
  simp only [formatXkk, fieldN1, fieldX, fieldKk, regBits_toFin, BitVec.getLsbD_extractLsb', BitVec.getLsbD_append]
  interval_cases i <;> simp

theorem formatNnn_fields (op : Word) : formatNnn (fieldN1 op) (fieldNnn op) = op := by
  apply BitVec.eq_of_getLsbD_eq
  intro i hi
  simp only [formatNnn, fieldN1, fieldNnn, BitVec.getLsbD_extractLsb', BitVec.getLsbD_append]
  interval_cases i <;> simp

/-! ### Masks (R92) -/

theorem and_mask_F000 (op : Word) : op &&& 0xF000 = fieldN1 op ++ 0x000#12 := by
  apply BitVec.eq_of_getLsbD_eq
  intro i hi
  simp only [fieldN1, BitVec.getLsbD_and, BitVec.getLsbD_extractLsb', BitVec.getLsbD_append]
  interval_cases i <;> simp

theorem and_mask_F00F (op : Word) : op &&& 0xF00F = (fieldN1 op ++ 0x00#8) ++ fieldN op := by
  apply BitVec.eq_of_getLsbD_eq
  intro i hi
  simp only [fieldN1, fieldN, BitVec.getLsbD_and, BitVec.getLsbD_extractLsb', BitVec.getLsbD_append]
  interval_cases i <;> simp

theorem and_mask_F0FF (op : Word) : op &&& 0xF0FF = (fieldN1 op ++ 0x0#4) ++ fieldKk op := by
  apply BitVec.eq_of_getLsbD_eq
  intro i hi
  simp only [fieldN1, fieldKk, BitVec.getLsbD_and, BitVec.getLsbD_extractLsb', BitVec.getLsbD_append]
  interval_cases i <;> simp

theorem and_mask_FFFF (op : Word) : op &&& 0xFFFF = op := BitVec.and_allOnes

/-- The bytes of a word, high byte first, give the word back (R65). -/
theorem wordOfBytes_bytes (op : Word) : wordOfBytes (highByte op) (lowByte op) = op := by
  apply BitVec.eq_of_getLsbD_eq
  intro i hi
  simp only [wordOfBytes, highByte, lowByte, BitVec.getLsbD_extractLsb', BitVec.getLsbD_append]
  interval_cases i <;> simp

theorem highByte_wordOfBytes (hi lo : Byte) : highByte (wordOfBytes hi lo) = hi := by
  apply BitVec.eq_of_getLsbD_eq
  intro i h
  simp only [wordOfBytes, highByte, BitVec.getLsbD_extractLsb', BitVec.getLsbD_append]
  interval_cases i <;> simp

theorem lowByte_wordOfBytes (hi lo : Byte) : lowByte (wordOfBytes hi lo) = lo := by
  apply BitVec.eq_of_getLsbD_eq
  intro i h
  simp only [wordOfBytes, lowByte, BitVec.getLsbD_extractLsb', BitVec.getLsbD_append]
  interval_cases i <;> simp

end Sys2Proof
end

