-- ==== Sys2Proof/Laws/State.lean ====
section
/-! SUPPORT. One lemma per field per update, so that no later proof unfolds a record update. -/

namespace Sys2Proof.Machine

/-! ### setV -/

@[simp] theorem State.setV_v (s : State) (x : Reg) (b : Byte) : (s.setV x b).v = s.v.set x.val b := rfl
@[simp] theorem State.setV_i (s : State) (x : Reg) (b : Byte) : (s.setV x b).i = s.i := rfl
@[simp] theorem State.setV_pc (s : State) (x : Reg) (b : Byte) : (s.setV x b).pc = s.pc := rfl
@[simp] theorem State.setV_stack (s : State) (x : Reg) (b : Byte) : (s.setV x b).stack = s.stack := rfl
@[simp] theorem State.setV_sp (s : State) (x : Reg) (b : Byte) : (s.setV x b).sp = s.sp := rfl
@[simp] theorem State.setV_dt (s : State) (x : Reg) (b : Byte) : (s.setV x b).dt = s.dt := rfl
@[simp] theorem State.setV_st (s : State) (x : Reg) (b : Byte) : (s.setV x b).st = s.st := rfl
@[simp] theorem State.setV_fb (s : State) (x : Reg) (b : Byte) : (s.setV x b).fb = s.fb := rfl
@[simp] theorem State.setV_keys (s : State) (x : Reg) (b : Byte) : (s.setV x b).keys = s.keys := rfl
@[simp] theorem State.setV_mem (s : State) (x : Reg) (b : Byte) : (s.setV x b).mem = s.mem := rfl
@[simp] theorem State.setV_run (s : State) (x : Reg) (b : Byte) : (s.setV x b).run = s.run := rfl
@[simp] theorem State.setV_cfg (s : State) (x : Reg) (b : Byte) : (s.setV x b).cfg = s.cfg := rfl
@[simp] theorem State.setV_draws (s : State) (x : Reg) (b : Byte) : (s.setV x b).draws = s.draws := rfl
@[simp] theorem State.setV_boot (s : State) (x : Reg) (b : Byte) : (s.setV x b).boot = s.boot := rfl

/-! ### setI -/

@[simp] theorem State.setI_v (s : State) (a : Index) : (s.setI a).v = s.v := rfl
@[simp] theorem State.setI_i (s : State) (a : Index) : (s.setI a).i = a := rfl
@[simp] theorem State.setI_pc (s : State) (a : Index) : (s.setI a).pc = s.pc := rfl
@[simp] theorem State.setI_stack (s : State) (a : Index) : (s.setI a).stack = s.stack := rfl
@[simp] theorem State.setI_sp (s : State) (a : Index) : (s.setI a).sp = s.sp := rfl
@[simp] theorem State.setI_dt (s : State) (a : Index) : (s.setI a).dt = s.dt := rfl
@[simp] theorem State.setI_st (s : State) (a : Index) : (s.setI a).st = s.st := rfl
@[simp] theorem State.setI_fb (s : State) (a : Index) : (s.setI a).fb = s.fb := rfl
@[simp] theorem State.setI_keys (s : State) (a : Index) : (s.setI a).keys = s.keys := rfl
@[simp] theorem State.setI_mem (s : State) (a : Index) : (s.setI a).mem = s.mem := rfl
@[simp] theorem State.setI_run (s : State) (a : Index) : (s.setI a).run = s.run := rfl
@[simp] theorem State.setI_cfg (s : State) (a : Index) : (s.setI a).cfg = s.cfg := rfl
@[simp] theorem State.setI_draws (s : State) (a : Index) : (s.setI a).draws = s.draws := rfl
@[simp] theorem State.setI_boot (s : State) (a : Index) : (s.setI a).boot = s.boot := rfl

/-! ### setPc -/

@[simp] theorem State.setPc_v (s : State) (w : Word) : (s.setPc w).v = s.v := rfl
@[simp] theorem State.setPc_i (s : State) (w : Word) : (s.setPc w).i = s.i := rfl
@[simp] theorem State.setPc_pc (s : State) (w : Word) : (s.setPc w).pc = w := rfl
@[simp] theorem State.setPc_stack (s : State) (w : Word) : (s.setPc w).stack = s.stack := rfl
@[simp] theorem State.setPc_sp (s : State) (w : Word) : (s.setPc w).sp = s.sp := rfl
@[simp] theorem State.setPc_dt (s : State) (w : Word) : (s.setPc w).dt = s.dt := rfl
@[simp] theorem State.setPc_st (s : State) (w : Word) : (s.setPc w).st = s.st := rfl
@[simp] theorem State.setPc_fb (s : State) (w : Word) : (s.setPc w).fb = s.fb := rfl
@[simp] theorem State.setPc_keys (s : State) (w : Word) : (s.setPc w).keys = s.keys := rfl
@[simp] theorem State.setPc_mem (s : State) (w : Word) : (s.setPc w).mem = s.mem := rfl
@[simp] theorem State.setPc_run (s : State) (w : Word) : (s.setPc w).run = s.run := rfl
@[simp] theorem State.setPc_cfg (s : State) (w : Word) : (s.setPc w).cfg = s.cfg := rfl
@[simp] theorem State.setPc_draws (s : State) (w : Word) : (s.setPc w).draws = s.draws := rfl
@[simp] theorem State.setPc_boot (s : State) (w : Word) : (s.setPc w).boot = s.boot := rfl

/-! ### pokeByte -/

@[simp] theorem State.pokeByte_v (s : State) (a : Nat) (b : Byte) : (s.pokeByte a b).v = s.v := rfl
@[simp] theorem State.pokeByte_i (s : State) (a : Nat) (b : Byte) : (s.pokeByte a b).i = s.i := rfl
@[simp] theorem State.pokeByte_pc (s : State) (a : Nat) (b : Byte) : (s.pokeByte a b).pc = s.pc := rfl
@[simp] theorem State.pokeByte_stack (s : State) (a : Nat) (b : Byte) : (s.pokeByte a b).stack = s.stack := rfl
@[simp] theorem State.pokeByte_sp (s : State) (a : Nat) (b : Byte) : (s.pokeByte a b).sp = s.sp := rfl
@[simp] theorem State.pokeByte_dt (s : State) (a : Nat) (b : Byte) : (s.pokeByte a b).dt = s.dt := rfl
@[simp] theorem State.pokeByte_st (s : State) (a : Nat) (b : Byte) : (s.pokeByte a b).st = s.st := rfl
@[simp] theorem State.pokeByte_fb (s : State) (a : Nat) (b : Byte) : (s.pokeByte a b).fb = s.fb := rfl
@[simp] theorem State.pokeByte_keys (s : State) (a : Nat) (b : Byte) : (s.pokeByte a b).keys = s.keys := rfl
@[simp] theorem State.pokeByte_mem (s : State) (a : Nat) (b : Byte) : (s.pokeByte a b).mem = s.mem.write s.cfg.fontTable a b := rfl
@[simp] theorem State.pokeByte_run (s : State) (a : Nat) (b : Byte) : (s.pokeByte a b).run = s.run := rfl
@[simp] theorem State.pokeByte_cfg (s : State) (a : Nat) (b : Byte) : (s.pokeByte a b).cfg = s.cfg := rfl
@[simp] theorem State.pokeByte_draws (s : State) (a : Nat) (b : Byte) : (s.pokeByte a b).draws = s.draws := rfl
@[simp] theorem State.pokeByte_boot (s : State) (a : Nat) (b : Byte) : (s.pokeByte a b).boot = s.boot := rfl

/-! ### beginRun -/

@[simp] theorem State.beginRun_v (s : State) : s.beginRun.v = s.v := rfl
@[simp] theorem State.beginRun_i (s : State) : s.beginRun.i = s.i := rfl
@[simp] theorem State.beginRun_pc (s : State) : s.beginRun.pc = s.pc := rfl
@[simp] theorem State.beginRun_stack (s : State) : s.beginRun.stack = s.stack := rfl
@[simp] theorem State.beginRun_sp (s : State) : s.beginRun.sp = s.sp := rfl
@[simp] theorem State.beginRun_dt (s : State) : s.beginRun.dt = s.dt := rfl
@[simp] theorem State.beginRun_st (s : State) : s.beginRun.st = s.st := rfl
@[simp] theorem State.beginRun_fb (s : State) : s.beginRun.fb = s.fb := rfl
@[simp] theorem State.beginRun_keys (s : State) : s.beginRun.keys = s.keys := rfl
@[simp] theorem State.beginRun_mem (s : State) : s.beginRun.mem = s.mem := rfl
@[simp] theorem State.beginRun_run (s : State) : s.beginRun.run = s.run := rfl
@[simp] theorem State.beginRun_cfg (s : State) : s.beginRun.cfg = s.cfg := rfl
@[simp] theorem State.beginRun_draws (s : State) : s.beginRun.draws = s.draws := rfl
@[simp] theorem State.beginRun_boot (s : State) : s.beginRun.boot = .underway := rfl
@[simp] theorem State.readByte_beginRun (s : State) (a : Nat) : s.beginRun.readByte a = s.readByte a := rfl

/-! ### Reading a register or a byte after an update -/

theorem State.getV_setV (s : State) (x y : Reg) (b : Byte) :
    (s.setV x b).getV y = if y = x then b else s.getV y := by
  simp only [State.getV, State.setV, Vector.getElem_set, Fin.ext_iff, eq_comm]

@[simp] theorem State.getV_setV_self (s : State) (x : Reg) (b : Byte) : (s.setV x b).getV x = b := by
  simp [State.getV_setV]

theorem State.getV_setV_ne (s : State) {x y : Reg} (b : Byte) (h : y ≠ x) : (s.setV x b).getV y = s.getV y := by
  simp [State.getV_setV, h]

/-- A byte read depends on the parameters and the memory alone. -/
theorem State.readByte_congr {s t : State} (hc : t.cfg = s.cfg) (hm : t.mem = s.mem) (a : Nat) :
    t.readByte a = s.readByte a := by
  simp only [State.readByte, hc, hm]

/-- A register read depends on the register file alone. -/
theorem State.getV_congr {s t : State} (hv : t.v = s.v) (x : Reg) : t.getV x = s.getV x := by
  simp only [State.getV, hv]

@[simp] theorem State.readByte_setV (s : State) (x : Reg) (b : Byte) (a : Nat) :
    (s.setV x b).readByte a = s.readByte a := rfl
@[simp] theorem State.readByte_setI (s : State) (j : Index) (a : Nat) : (s.setI j).readByte a = s.readByte a := rfl
@[simp] theorem State.readByte_setPc (s : State) (w : Word) (a : Nat) : (s.setPc w).readByte a = s.readByte a := rfl
@[simp] theorem State.getV_setI (s : State) (j : Index) (x : Reg) : (s.setI j).getV x = s.getV x := rfl
@[simp] theorem State.getV_setPc (s : State) (w : Word) (x : Reg) : (s.setPc w).getV x = s.getV x := rfl
@[simp] theorem State.getV_pokeByte (s : State) (a : Nat) (b : Byte) (x : Reg) :
    (s.pokeByte a b).getV x = s.getV x := rfl

/-- Every register of a state is zero after reset (R45). -/
@[simp] theorem State.getV_resetWith (c : Config) (d : Nat) (x : Reg) : (State.resetWith c d).getV x = 0 := by
  simp [State.getV, State.resetWith]

/-- After reset an address reads as unlisted (R45). -/
@[simp] theorem State.readByte_resetWith (c : Config) (d a : Nat) :
    (State.resetWith c d).readByte a = resetByte c.fontTable a := rfl

/-! ### Updates of several fields leave the others alone -/

@[simp] theorem latchFault_run (s : State) (f : Fault) : (latchFault s f).run = .faulted f := rfl
@[simp] theorem machineReset_eq (s : State) : machineReset s = State.resetWith s.cfg s.draws := rfl
@[simp] theorem advance_eq (s : State) : advance s = s.setPc (s.pc + 2) := rfl

/-- Loading several registers changes nothing but the register file (R195). -/
theorem State.setVs_eq (s : State) (k : Nat) (bs : List Byte) : s.setVs k bs = { s with v := (s.setVs k bs).v } := by
  induction bs generalizing s k with
  | nil => rfl
  | cons b bs ih =>
    simp only [State.setVs]
    split
    · rw [ih]; simp [State.setV]
    · exact ih ..

/-- Poking several bytes changes nothing but the memory. -/
theorem State.pokeBytes_eq (s : State) (a : Nat) (bs : List Byte) :
    s.pokeBytes a bs = { s with mem := (s.pokeBytes a bs).mem } := by
  induction bs generalizing a with
  | nil => rfl
  | cons b bs ih =>
    simp only [State.pokeBytes, State.pokeByte]
    rw [ih]

/-- `V[k + m]` is the `m`-th byte of the block loaded from `V[k]` on, if there is one (R195). -/
theorem State.getV_setVs (s : State) (k : Nat) (bs : List Byte) (j : Reg) :
    (s.setVs k bs).getV j = if h : k ≤ j.val ∧ j.val - k < bs.length then bs[j.val - k]'h.2 else s.getV j := by
  induction bs generalizing s k with
  | nil => simp [State.setVs]
  | cons b bs ih =>
    rw [State.setVs, ih]
    have hj := j.isLt
    by_cases hk : k < 16
    · simp only [dif_pos hk, State.getV_setV, Fin.ext_iff]
      by_cases h1 : k + 1 ≤ j.val
      · have hne : j.val ≠ k := by omega
        have hs : j.val - k = (j.val - (k + 1)) + 1 := by omega
        by_cases h2 : j.val - (k + 1) < bs.length
        · rw [dif_pos ⟨h1, h2⟩, dif_pos ⟨by omega, by simp; omega⟩]
          simp [hs]
        · rw [dif_neg (by omega), dif_neg (by simp; omega), if_neg hne]
      · by_cases he : j.val = k
        · rw [dif_neg (by omega), if_pos he, dif_pos ⟨by omega, by simp; omega⟩]
          simp [he]
        · rw [dif_neg (by omega), if_neg he, dif_neg (by simp; omega)]
    · rw [dif_neg hk, dif_neg (by omega), dif_neg (by omega)]

end Sys2Proof.Machine
end

