-- ==== Sys2Proof/Laws/Memory.lean ====
section
/-! SUPPORT. Memory: a read after a write, the canonical form and its uniqueness, and what the checked accesses of
rules R62 to R64 answer. -/

namespace Sys2Proof.Machine

/-! ### The list of cells -/

/-- A list of cells whose addresses lie above `a` reads `a` as unlisted. -/
theorem Memory.read_of_lt (font : FontTable) (m : Memory) (a : Nat) (h : ∀ p ∈ m, a < p.1) :
    Memory.read font m a = resetByte font a := by
  induction m with
  | nil => rfl
  | cons p m ih =>
    have hp := h p (by simp)
    rw [Memory.read, if_neg (by omega), ih (fun q hq => h q (by simp [hq]))]

/-- A write leaves every other address alone (no canonical form is needed for this). -/
theorem Memory.read_write_ne (font : FontTable) (m : Memory) (a c : Nat) (b : Byte) (h : c ≠ a) :
    Memory.read font (Memory.write font m a b) c = Memory.read font m c := by
  induction m with
  | nil => by_cases hb : b = resetByte font a <;> simp [Memory.write, Memory.read, hb, h]
  | cons p m ih =>
    obtain ⟨k, e⟩ := p
    simp only [Memory.write]
    split
    · split <;> simp [Memory.read, h]
    · split
      · split <;> simp_all [Memory.read]
      · simp only [Memory.read, ih]

/-- A read after a write to the same address gives the value written. -/
theorem Memory.read_write_self (font : FontTable) (m : Memory) (a : Nat) (b : Byte) (hm : Memory.wf font m) :
    Memory.read font (Memory.write font m a b) a = b := by
  induction m with
  | nil => by_cases hb : b = resetByte font a <;> simp [Memory.write, Memory.read, hb]
  | cons p m ih =>
    obtain ⟨k, e⟩ := p
    obtain ⟨hs, hv⟩ := hm
    rw [List.pairwise_cons] at hs
    have habove : ∀ q ∈ m, k < q.1 := fun q hq => hs.1 q hq
    simp only [Memory.write]
    split
    · rename_i hlt
      split
      · rename_i hb
        rw [hb]
        refine Memory.read_of_lt font _ a fun q hq => ?_
        rcases List.mem_cons.1 hq with rfl | hq
        · exact hlt
        · exact Nat.lt_trans hlt (habove q hq)
      · simp [Memory.read]
    · split
      · rename_i heq
        split
        · rename_i hb
          rw [hb]
          exact Memory.read_of_lt font _ a fun q hq => heq ▸ habove q hq
        · simp [Memory.read]
      · rename_i hne
        rw [Memory.read, if_neg hne, ih ⟨hs.2, fun q hq => hv q (by simp [hq])⟩]

/-- The entries of a written list are old ones or the written one. -/
theorem Memory.mem_write (font : FontTable) (m : Memory) (a : Nat) (b : Byte) (p : Host.Cell)
    (h : p ∈ Memory.write font m a b) : p ∈ m ∨ (p = (a, b) ∧ b ≠ resetByte font a) := by
  induction m with
  | nil =>
    simp only [Memory.write] at h
    split at h <;> simp_all
  | cons q m ih =>
    obtain ⟨k, e⟩ := q
    simp only [Memory.write] at h
    split at h
    · split at h
      · exact .inl h
      · rcases List.mem_cons.1 h with rfl | h
        · exact .inr ⟨rfl, ‹_›⟩
        · exact .inl h
    · split at h
      · split at h
        · exact .inl (by simp [h])
        · rcases List.mem_cons.1 h with rfl | h
          · exact .inr ⟨rfl, ‹_›⟩
          · exact .inl (by simp [h])
      · rcases List.mem_cons.1 h with rfl | h
        · exact .inl (by simp)
        · exact (ih h).imp (fun h => by simp [h]) id

/-- A write inside the memory keeps the canonical form. -/
theorem Memory.write_wf (font : FontTable) (m : Memory) (a : Nat) (b : Byte) (hm : Memory.wf font m)
    (ha : a < memSize) : Memory.wf font (Memory.write font m a b) := by
  refine ⟨?_, fun p hp => ?_⟩
  · replace hm := hm.1
    induction m with
    | nil =>
      simp only [Memory.write]
      split <;> simp
    | cons q m ih =>
      obtain ⟨k, e⟩ := q
      have hq := List.pairwise_cons.1 hm
      simp only [Memory.write]
      split
      · rename_i hlt
        split
        · exact hm
        · refine List.pairwise_cons.2 ⟨fun p hp => ?_, hm⟩
          rcases List.mem_cons.1 hp with rfl | hp
          · exact hlt
          · exact Nat.lt_trans hlt (hq.1 p hp)
      · split
        · rename_i heq
          split
          · exact hq.2
          · exact List.pairwise_cons.2 ⟨fun p hp => heq ▸ hq.1 p hp, hq.2⟩
        · rename_i hlt hne
          refine List.pairwise_cons.2 ⟨fun p hp => ?_, ih hq.2⟩
          rcases Memory.mem_write font m a b p hp with hp | ⟨rfl, -⟩
          · exact hq.1 p hp
          · show k < a
            omega
  · rcases Memory.mem_write font m a b p hp with hp | ⟨rfl, hb⟩
    · exact hm.2 p hp
    · exact ⟨ha, hb⟩

/-- Canonical memories that read alike are equal, so equal memories are equal data. -/
theorem Memory.ext_of_wf (font : FontTable) (m n : Memory) (hm : Memory.wf font m) (hn : Memory.wf font n)
    (h : ∀ a, Memory.read font m a = Memory.read font n a) : m = n := by
  have head_ne : ∀ (k : Nat) (e : Byte) (l r : Memory), Memory.wf font ((k, e) :: l) → (∀ p ∈ r, k < p.1) →
      Memory.read font ((k, e) :: l) k ≠ Memory.read font r k := by
    intro k e l r hl hr
    rw [Memory.read_of_lt font r k hr]
    simpa [Memory.read] using (hl.2 (k, e) (by simp)).2
  induction m generalizing n with
  | nil =>
    cases n with
    | nil => rfl
    | cons q n => exact absurd (h q.1).symm (head_ne q.1 q.2 n [] hn (by simp))
  | cons p m ih =>
    cases n with
    | nil => exact absurd (h p.1) (head_ne p.1 p.2 m [] hm (by simp))
    | cons q n =>
      obtain ⟨k, e⟩ := p
      obtain ⟨l, f⟩ := q
      have hm1 := List.pairwise_cons.1 hm.1
      have hn1 := List.pairwise_cons.1 hn.1
      rcases Nat.lt_trichotomy k l with hlt | rfl | hlt
      · refine absurd (h k) (head_ne k e m ((l, f) :: n) hm fun r hr => ?_)
        rcases List.mem_cons.1 hr with rfl | hr
        · exact hlt
        · exact Nat.lt_trans hlt (hn1.1 r hr)
      · have hef : e = f := by simpa [Memory.read] using h k
        subst hef
        have htail : m = n := by
          refine ih n ⟨hm1.2, fun r hr => hm.2 r (by simp [hr])⟩ ⟨hn1.2, fun r hr => hn.2 r (by simp [hr])⟩
            fun a => ?_
          by_cases ha : a = k
          · rw [ha, Memory.read_of_lt font m k fun r hr => hm1.1 r hr,
              Memory.read_of_lt font n k fun r hr => hn1.1 r hr]
          · simpa [Memory.read, ha] using h a
        rw [htail]
      · refine absurd (h l).symm (head_ne l f n ((k, e) :: m) hn fun r hr => ?_)
        rcases List.mem_cons.1 hr with rfl | hr
        · exact hlt
        · exact Nat.lt_trans hlt (hm1.1 r hr)

/-- Memory after reset is canonical: nothing is listed. -/
theorem Memory.wf_nil (font : FontTable) : Memory.wf font [] := ⟨List.Pairwise.nil, fun p hp => absurd hp (by simp)⟩

/-! ### Bytes of a state -/

theorem State.readByte_pokeByte_ne (s : State) (a c : Nat) (b : Byte) (h : c ≠ a) :
    (s.pokeByte a b).readByte c = s.readByte c := Memory.read_write_ne _ _ _ _ _ h

theorem State.readByte_pokeByte_self (s : State) (a : Nat) (b : Byte) (h : MemoryCanonical s) :
    (s.pokeByte a b).readByte a = b := Memory.read_write_self _ _ _ _ h

theorem State.pokeByte_canonical (s : State) (a : Nat) (b : Byte) (h : MemoryCanonical s) (ha : a ≤ 0xFFF) :
    MemoryCanonical (s.pokeByte a b) :=
  Memory.write_wf _ _ _ _ h (by simp only [memSize]; omega)

/-- Bytes outside the poked block read as before. -/
theorem State.readByte_pokeBytes_outside (s : State) (a : Nat) (bs : List Byte) :
    SameMemoryOutside a bs.length s (s.pokeBytes a bs) := by
  induction bs generalizing a with
  | nil => exact fun c _ => rfl
  | cons b bs ih =>
    intro c hc
    simp only [List.length_cons] at hc
    rw [State.pokeBytes, State.readByte_pokeByte_ne _ _ _ _ (by omega), ih (a + 1) c (by omega)]

/-- Poking a block inside the memory keeps the canonical form, and the block then reads back. -/
theorem State.pokeBytes_spec (s : State) (a : Nat) (bs : List Byte) (hm : MemoryCanonical s)
    (ha : a + bs.length ≤ 0x1000) :
    MemoryCanonical (s.pokeBytes a bs) ∧
      ∀ (k : Nat) (h : k < bs.length), (s.pokeBytes a bs).readByte (a + k) = bs[k] := by
  induction bs generalizing a with
  | nil => exact ⟨hm, fun k h => absurd h (by simp)⟩
  | cons b bs ih =>
    simp only [List.length_cons] at ha
    obtain ⟨h1, h2⟩ := ih (a + 1) (by omega)
    refine ⟨State.pokeByte_canonical _ _ _ h1 (by omega), fun k h => ?_⟩
    cases k with
    | zero => exact State.readByte_pokeByte_self _ _ _ h1
    | succ k =>
      rw [State.pokeBytes, State.readByte_pokeByte_ne _ _ _ _ (by omega)]
      simpa [Nat.add_assoc, Nat.add_comm 1] using h2 k (by simpa using h)

/-! ### Checked accesses (R62 to R64) -/

theorem isFontAddr_iff (a : Nat) : isFontAddr a = true ↔ a ≤ 0x04F := by
  rw [isFontAddr, decide_eq_true_iff, fontBase, fontLen]
  omega

theorem memRead_ok (s : State) (pc : Word) (addr : Nat) (h : addr ≤ 0xFFF) :
    memRead s pc addr = .ok (s.readByte addr) := by
  simp only [memRead]; rw [if_neg (by omega)]

theorem memRead_error (s : State) (pc : Word) (addr : Nat) (h : 0xFFF < addr) :
    memRead s pc addr = .error (.boundsError (.memRead addr) pc) := by
  simp only [memRead, raise]; rw [if_pos h]

theorem memWrite_ok (s : State) (pc : Word) (addr : Nat) (b : Byte) (h : StoreAllowed s addr) :
    memWrite s pc addr b = .ok (s.pokeByte addr b) := by
  obtain ⟨h1, h2⟩ := h
  simp only [memWrite]
  rw [if_neg (by omega), if_neg]
  rintro ⟨h3, h4⟩
  have h5 := h2 h4
  rw [isFontAddr_iff] at h3
  omega

theorem memWrite_error (s : State) (pc : Word) (addr : Nat) (b : Byte) (h : ¬ StoreAllowed s addr) :
    memWrite s pc addr b = .error (.boundsError (.memWrite addr) pc) := by
  simp only [memWrite, raise]
  by_cases h1 : addr > 0xFFF
  · rw [if_pos h1]
  · rw [if_neg h1, if_pos]
    have h2 : s.cfg.fontWrite = .fault ∧ ¬ 0x04F < addr := by
      by_contra hc
      exact h ⟨by omega, fun hf => by by_contra h3; exact hc ⟨hf, h3⟩⟩
    exact ⟨(isFontAddr_iff addr).2 (by omega), h2.1⟩

/-- A store changes no check: the parameters stay. -/
theorem storeAllowed_pokeByte (s : State) (a : Nat) (b : Byte) (addr : Nat) :
    StoreAllowed (s.pokeByte a b) addr ↔ StoreAllowed s addr := Iff.rfl

/-- Reads in range give the bytes in ascending order (R256). -/
theorem memReads_ok (s : State) (pc : Word) (addr n : Nat) (h : ∀ k < n, addr + k ≤ 0xFFF) :
    memReads s pc addr n = .ok ((List.range n).map fun k => s.readByte (addr + k)) := by
  induction n generalizing addr with
  | zero => rfl
  | succ n ih =>
    rw [memReads, memRead_ok _ _ _ (by simpa using h 0 (by omega)),
      ih (addr + 1) fun k hk => by have := h (k + 1) (by omega); omega]
    simp [List.range_succ_eq_map, Function.comp_def, Nat.add_assoc, Nat.add_comm 1]

/-- The lowest address above 0xFFF is the one reported (R256). -/
theorem memReads_error (s : State) (pc : Word) (addr n k : Nat) (hk : k < n) (hlow : ∀ j < k, addr + j ≤ 0xFFF)
    (hbad : 0xFFF < addr + k) : memReads s pc addr n = .error (.boundsError (.memRead (addr + k)) pc) := by
  induction n generalizing addr k with
  | zero => omega
  | succ n ih =>
    rw [memReads]
    cases k with
    | zero => rw [memRead_error _ _ _ (by simpa using hbad)]; rfl
    | succ k =>
      rw [memRead_ok _ _ _ (by simpa using hlow 0 (by omega)), ih (addr + 1) k (by omega)
        (fun j hj => by have := hlow (j + 1) (by omega); omega) (by omega)]
      simp [Nat.add_assoc, Nat.add_comm 1]

/-- All that a block of reads can answer. -/
theorem memReads_cases (s : State) (pc : Word) (addr n : Nat) :
    ((∀ k < n, addr + k ≤ 0xFFF) ∧
      memReads s pc addr n = .ok ((List.range n).map fun k => s.readByte (addr + k))) ∨
    (∃ k < n, (∀ j < k, addr + j ≤ 0xFFF) ∧ 0xFFF < addr + k ∧
      memReads s pc addr n = .error (.boundsError (.memRead (addr + k)) pc)) := by
  by_cases h : ∀ k < n, addr + k ≤ 0xFFF
  · exact .inl ⟨h, memReads_ok s pc addr n h⟩
  · have hex : ∃ k, k < n ∧ 0xFFF < addr + k := by
      simp only [not_forall, not_le] at h
      obtain ⟨k, hk, hb⟩ := h
      exact ⟨k, hk, hb⟩
    have hlow : ∀ j < Nat.find hex, addr + j ≤ 0xFFF := fun j hj => by
      have := Nat.find_min hex hj
      have := (Nat.find_spec hex).1
      omega
    obtain ⟨hk, hb⟩ := Nat.find_spec hex
    exact .inr ⟨_, hk, hlow, hb, memReads_error s pc addr n _ hk hlow hb⟩

/-- Stores that all pass their checks give the state with the block poked in: only memory differs, outside the block
every byte reads as before, and from a canonical memory the block reads back and the form is kept. -/
theorem memWrites_ok (s : State) (pc : Word) (addr : Nat) (bs : List Byte)
    (h : ∀ k < bs.length, StoreAllowed s (addr + k)) :
    ∃ t, memWrites s pc addr bs = .ok t ∧ OnlyBytes addr bs.length s t ∧
      (MemoryCanonical s → MemoryCanonical t ∧
        ∀ (k : Nat) (hk : k < bs.length), t.readByte (addr + k) = bs[k]) := by
  induction bs generalizing s addr with
  | nil => exact ⟨s, rfl, ⟨fun a _ => rfl, rfl⟩, fun hm => ⟨hm, fun k hk => absurd hk (by simp)⟩⟩
  | cons b bs ih =>
    simp only [List.length_cons] at h
    have h0 : StoreAllowed s addr := by simpa using h 0 (by omega)
    obtain ⟨t, ht, ⟨hout, heq⟩, hc⟩ := ih (s.pokeByte addr b) (addr + 1) fun k hk => by
      simpa [storeAllowed_pokeByte, Nat.add_assoc, Nat.add_comm 1] using h (k + 1) (by omega)
    refine ⟨t, ?_, ⟨fun a ha => ?_, ?_⟩, fun hm => ?_⟩
    · rw [memWrites, memWrite_ok _ _ _ _ h0]; exact ht
    · simp only [List.length_cons] at ha
      rw [hout a (by omega), State.readByte_pokeByte_ne _ _ _ _ (by omega)]
    · rw [heq]; rfl
    · obtain ⟨hm', hr⟩ := hc (State.pokeByte_canonical _ _ _ hm h0.1)
      refine ⟨hm', fun k hk => ?_⟩
      cases k with
      | zero =>
        rw [Nat.add_zero, hout addr (by omega), State.readByte_pokeByte_self _ _ _ hm]; rfl
      | succ k => simpa [Nat.add_assoc, Nat.add_comm 1] using hr k (by simpa using hk)

/-- The lowest address that may not be stored to is the one reported (R256). -/
theorem memWrites_error (s : State) (pc : Word) (addr : Nat) (bs : List Byte) (k : Nat) (hk : k < bs.length)
    (hlow : ∀ j < k, StoreAllowed s (addr + j)) (hbad : ¬ StoreAllowed s (addr + k)) :
    memWrites s pc addr bs = .error (.boundsError (.memWrite (addr + k)) pc) := by
  induction bs generalizing s addr k with
  | nil => simp at hk
  | cons b bs ih =>
    rw [memWrites]
    cases k with
    | zero => rw [memWrite_error _ _ _ _ (by simpa using hbad)]; rfl
    | succ k =>
      rw [memWrite_ok _ _ _ _ (by simpa using hlow 0 (by omega))]
      have hs : ∀ j, StoreAllowed (s.pokeByte addr b) (addr + 1 + j) ↔ StoreAllowed s (addr + (j + 1)) := fun j => by
        rw [storeAllowed_pokeByte, Nat.add_assoc, Nat.add_comm 1]
      have := ih (s.pokeByte addr b) (addr + 1) k (by simpa using hk)
        (fun j hj => (hs j).2 (hlow (j + 1) (by omega))) (fun hc => hbad ((hs k).1 hc))
      simpa [Nat.add_assoc, Nat.add_comm 1] using this

/-- All that a block of stores can answer. -/
theorem memWrites_cases (s : State) (pc : Word) (addr : Nat) (bs : List Byte) :
    (∀ k < bs.length, StoreAllowed s (addr + k)) ∨
    (∃ k < bs.length, (∀ j < k, StoreAllowed s (addr + j)) ∧ ¬ StoreAllowed s (addr + k) ∧
      memWrites s pc addr bs = .error (.boundsError (.memWrite (addr + k)) pc)) := by
  classical
  by_cases h : ∀ k < bs.length, StoreAllowed s (addr + k)
  · exact .inl h
  · have hex : ∃ k, k < bs.length ∧ ¬ StoreAllowed s (addr + k) := by
      simp only [not_forall] at h
      obtain ⟨k, hk, hb⟩ := h
      exact ⟨k, hk, hb⟩
    have hlow : ∀ j < Nat.find hex, StoreAllowed s (addr + j) := fun j hj => by
      by_contra hc
      exact Nat.find_min hex hj ⟨by have := (Nat.find_spec hex).1; omega, hc⟩
    obtain ⟨hk, hb⟩ := Nat.find_spec hex
    exact .inr ⟨_, hk, hlow, hb, memWrites_error s pc addr bs _ hk hlow hb⟩

end Sys2Proof.Machine
end

