-- ==== Sys2Proof/Laws/Ops.lean ====
section
/-! SUPPORT. What the shared operations over the stack, the flag and the keys answer, once for all meanings. -/

namespace Sys2Proof.Machine

/-! ### Stack (R31, R32) -/

/-- A push with room stores the word at SP and raises SP; a push on a full stack overflows. -/
theorem push_cases (s : State) (pc w : Word) :
    (∃ h : s.sp.val < 16, push s pc w =
      .ok { s with stack := s.stack.set s.sp.val w, sp := ⟨s.sp.val + 1, by omega⟩ }) ∨
    (s.sp.val = 16 ∧ push s pc w = .error (.boundsError .stackOverflow pc)) := by
  by_cases h : s.sp.val < 16
  · exact .inl ⟨h, by rw [push, dif_pos h]⟩
  · exact .inr ⟨by have := s.sp.isLt; omega, by rw [push, dif_neg h, raise]⟩

/-- A pop gives the top entry and lowers SP; a pop of an empty stack underflows. -/
theorem pop_cases (s : State) (pc : Word) :
    (∃ h : 0 < s.sp.val, pop s pc = .ok (topEntry s, { s with sp := ⟨s.sp.val - 1, by omega⟩ })) ∨
    (s.sp.val = 0 ∧ pop s pc = .error (.boundsError .stackUnderflow pc)) := by
  by_cases h : 0 < s.sp.val
  · exact .inl ⟨h, by rw [pop, dif_pos h]; rfl⟩
  · exact .inr ⟨by omega, by rw [pop, dif_neg h, raise]⟩

/-- The address an instruction was fetched from (R122). -/
theorem instrPc_of_advanced {s : State} {a : Word} (h : s.pc = a + 2) : instrPc s = a := by
  rw [instrPc, h, BitVec.add_sub_cancel]

/-! ### Result and flag (R161) -/

theorem getV_setResultFlag (s : State) (x : Reg) (r : Byte) (f : Bool) (j : Reg) :
    (setResultFlag s x r f).getV j = if j = 15 then flagByte f else if j = x then r else s.getV j := by
  simp only [setResultFlag, State.getV_setV, vf]

/-- Writing a result and a flag changes the destination and VF only. -/
theorem setResultFlag_onlyRegs (s : State) (x : Reg) (r : Byte) (f : Bool) :
    OnlyRegs (fun j => j = x ∨ j = 15) s (setResultFlag s x r f) := by
  refine ⟨fun j hj => ?_, fun a => rfl, rfl⟩
  rw [getV_setResultFlag, if_neg fun h => hj (.inr h), if_neg fun h => hj (.inl h)]

/-- Writing one register changes that register only. -/
theorem setV_onlyRegs (s : State) (x : Reg) (b : Byte) : OnlyRegs (· = x) s (s.setV x b) :=
  ⟨fun _ hj => State.getV_setV_ne s b hj, fun _ => rfl, rfl⟩

/-- Writing PC changes PC only. -/
theorem setPc_onlyPc (s : State) (w : Word) : OnlyPc s (s.setPc w) := ⟨fun _ => rfl, rfl⟩

/-- A skip changes PC only. -/
theorem skipIf_onlyPc (c : Bool) (s : State) : OnlyPc s (skipIf c s) := by
  cases c
  · exact ⟨fun _ => rfl, rfl⟩
  · exact setPc_onlyPc s _

theorem skipIf_pc (c : Bool) (s : State) : (skipIf c s).pc = if c then s.pc + 2 else s.pc := by
  cases c <;> rfl

theorem flagByte_toNat (f : Bool) : (flagByte f).toNat = f.toNat := by cases f <;> rfl

theorem flagByte_eq_zero_or_one (f : Bool) : flagByte f = 0 ∨ flagByte f = 1 := by cases f <;> simp [flagByte]

/-! ### Keys (R232, R236) -/

theorem keySelected_val (s : State) (x : Reg) : (keySelected s x).val = (s.getV x).toNat % 16 := by
  simp [keySelected]

/-- No key is found exactly if none is down. -/
theorem lowestKey_eq_none (s : State) : lowestKey s = none ↔ ∀ k, ¬ KeyDown s k := by
  simp [lowestKey, keyPressed, KeyDown]

/-- The key found is down, and no lower one is. -/
theorem lowestKey_eq_some (s : State) (k : Key) :
    lowestKey s = some k ↔ KeyDown s k ∧ ∀ j < k, ¬ KeyDown s j := by
  unfold lowestKey
  rw [List.find?_eq_some_iff_getElem]
  simp only [keyPressed, KeyDown, List.getElem_finRange, List.length_finRange, Fin.ext_iff, Fin.val_cast]
  constructor
  · rintro ⟨hk, i, hi, hik, hj⟩
    refine ⟨hk, fun j hjk => ?_⟩
    have hjv : j.val < i := by
      have : j.val < k.val := hjk
      omega
    simpa using hj j.val hjv
  · rintro ⟨hk, hj⟩
    refine ⟨hk, k.val, k.isLt, rfl, fun j hjk => ?_⟩
    simpa using hj ⟨j, by omega⟩ hjk

/-- No key down is `KEYS = 0x0000`. -/
theorem noKeyDown_iff (s : State) : (∀ k, ¬ KeyDown s k) ↔ s.keys = 0 := by
  constructor
  · intro h
    apply BitVec.eq_of_getLsbD_eq
    intro i hi
    simpa [KeyDown] using h ⟨i, hi⟩
  · intro h k
    simp [KeyDown, h]

/-! ### Registers as a block (R194) -/

theorem regBlock_length (s : State) (x : Reg) : (regBlock s x).length = x.val + 1 := by
  have := x.isLt
  simp [regBlock]

theorem regBlock_getElem (s : State) (x : Reg) (k : Nat) (h : k < (regBlock s x).length) :
    (regBlock s x)[k] = s.getV ⟨k, by rw [regBlock_length] at h; omega⟩ := by
  simp [regBlock, State.getV]

end Sys2Proof.Machine
end

