-- ==== Sys2Proof/Laws/Draw.lean ====
section
/-! SUPPORT. The XOR-blit of rule R211: its loops are a fold over the sprite's 1-bits, no two of which land on the same
screen pixel, so it toggles exactly the pixels they land on. -/

namespace Sys2Proof.Machine

theorem pixel_flip (fb : Framebuffer) (x a : Fin 64) (y b : Fin 32) :
    Framebuffer.pixel (Framebuffer.flip fb x y) a b =
      if a = x ∧ b = y then !Framebuffer.pixel fb a b else Framebuffer.pixel fb a b := by
  simp only [Framebuffer.pixel, Framebuffer.flip, Vector.getElem_set, Fin.ext_iff]
  by_cases hy : y.val = b.val
  · by_cases hx : x.val = a.val
    · simp [hx, hy]
    · simp [hx, hy, Ne.symm hx]
  · simp [hy, Ne.symm hy]

@[simp] theorem pixel_blank (x : Fin 64) (y : Fin 32) : Framebuffer.pixel Framebuffer.blank x y = false := by
  simp [Framebuffer.pixel, Framebuffer.blank]

/-- A sprite pixel is placed where it lands. -/
theorem placePixel_eq_some (edge : DrawEdge) (X Y : Nat) (a : Fin 64) (b : Fin 32) :
    placePixel edge X Y = some (a, b) ↔ LandsOn edge X Y a b := by
  cases edge
  · simp [placePixel, LandsOn, Fin.ext_iff]
  · simp only [placePixel, LandsOn]
    by_cases h : X < 64 ∧ Y < 32
    · rw [dif_pos h]; simp [Fin.ext_iff]
    · rw [dif_neg h]
      have := a.isLt
      have := b.isLt
      simp only [reduceCtorEq, false_iff]
      omega

/-- One sprite 1-bit toggles the pixel it lands on, and collides if that pixel was set. -/
theorem drawPixel_spec (edge : DrawEdge) (X Y : Nat) (acc : Framebuffer × Bool) :
    (∀ a b, LandsOn edge X Y a b →
      Framebuffer.pixel (drawPixel edge X Y acc).1 a b = !Framebuffer.pixel acc.1 a b) ∧
    (∀ a b, ¬ LandsOn edge X Y a b → Framebuffer.pixel (drawPixel edge X Y acc).1 a b = Framebuffer.pixel acc.1 a b) ∧
    ((drawPixel edge X Y acc).2 = true ↔
      acc.2 = true ∨ ∃ a b, LandsOn edge X Y a b ∧ Framebuffer.pixel acc.1 a b = true) := by
  simp only [← placePixel_eq_some, drawPixel]
  cases placePixel edge X Y with
  | none => simp
  | some p =>
    obtain ⟨x, y⟩ := p
    refine ⟨fun a b h => ?_, fun a b h => ?_, ?_⟩
    · simp only [Option.some.injEq, Prod.mk.injEq] at h
      rw [pixel_flip, if_pos ⟨h.1.symm, h.2.symm⟩]
    · rw [pixel_flip, if_neg fun hc => h (by rw [hc.1, hc.2])]
    · simp

/-- The fold of `drawPixel` over points no two of which land on the same pixel. -/
theorem foldl_drawPixel_spec (edge : DrawEdge) (pts : List (Nat × Nat)) (acc : Framebuffer × Bool)
    (hd : pts.Pairwise fun p q => ∀ a b, LandsOn edge p.1 p.2 a b → ¬ LandsOn edge q.1 q.2 a b) :
    (∀ a b, (∃ p ∈ pts, LandsOn edge p.1 p.2 a b) →
      Framebuffer.pixel (pts.foldl (fun acc p => drawPixel edge p.1 p.2 acc) acc).1 a b =
        !Framebuffer.pixel acc.1 a b) ∧
    (∀ a b, (∀ p ∈ pts, ¬ LandsOn edge p.1 p.2 a b) →
      Framebuffer.pixel (pts.foldl (fun acc p => drawPixel edge p.1 p.2 acc) acc).1 a b =
        Framebuffer.pixel acc.1 a b) ∧
    ((pts.foldl (fun acc p => drawPixel edge p.1 p.2 acc) acc).2 = true ↔
      acc.2 = true ∨ ∃ p ∈ pts, ∃ a b, LandsOn edge p.1 p.2 a b ∧ Framebuffer.pixel acc.1 a b = true) := by
  induction pts generalizing acc with
  | nil => simp
  | cons p pts ih =>
    obtain ⟨hp, htail⟩ := List.pairwise_cons.1 hd
    obtain ⟨h1, h2, h3⟩ := ih (drawPixel edge p.1 p.2 acc) htail
    obtain ⟨d1, d2, d3⟩ := drawPixel_spec edge p.1 p.2 acc
    refine ⟨fun a b h => ?_, fun a b h => ?_, ?_⟩
    · rw [List.foldl_cons]
      by_cases hl : LandsOn edge p.1 p.2 a b
      · rw [h2 a b fun q hq => hp q hq a b hl, d1 a b hl]
      · obtain ⟨q, hq, hql⟩ := h
        rcases List.mem_cons.1 hq with rfl | hq
        · exact absurd hql hl
        · rw [h1 a b ⟨q, hq, hql⟩, d2 a b hl]
    · rw [List.foldl_cons, h2 a b fun q hq => h q (List.mem_cons_of_mem _ hq), d2 a b (h p (by simp))]
    · rw [List.foldl_cons, h3, d3]
      constructor
      · rintro ((h | h) | ⟨q, hq, a, b, hl, hpx⟩)
        · exact .inl h
        · exact .inr ⟨p, by simp, h⟩
        · refine .inr ⟨q, List.mem_cons_of_mem _ hq, a, b, hl, ?_⟩
          rwa [d2 a b fun hc => hp q hq a b hc hl] at hpx
      · rintro (h | ⟨q, hq, a, b, hl, hpx⟩)
        · exact .inl (.inl h)
        · rcases List.mem_cons.1 hq with rfl | hq
          · exact .inl (.inr ⟨a, b, hl, hpx⟩)
          · refine .inr ⟨q, hq, a, b, hl, ?_⟩
            rwa [d2 a b fun hc => hp q hq a b hc hl]

/-- The points of a sprite's 1-bits, in the order the loops of R211 take them. -/
def spritePoints (x0 py : Nat) : List Byte → List (Nat × Nat)
  | [] => []
  | row :: rows =>
    (([0, 1, 2, 3, 4, 5, 6, 7].filter (spriteBit row)).map fun c => (x0 + c, py)) ++ spritePoints x0 (py + 1) rows

theorem drawColumns_eq_foldl (edge : DrawEdge) (x0 py : Nat) (row : Byte) (cs : List Nat) (acc : Framebuffer × Bool) :
    drawColumns edge x0 py row cs acc =
      ((cs.filter (spriteBit row)).map fun c => (x0 + c, py)).foldl (fun acc p => drawPixel edge p.1 p.2 acc) acc := by
  induction cs generalizing acc with
  | nil => rfl
  | cons c cs ih =>
    rw [drawColumns, ih]
    by_cases h : spriteBit row c = true <;> simp [h]

theorem drawRows_eq_foldl (edge : DrawEdge) (x0 py : Nat) (rows : List Byte) (acc : Framebuffer × Bool) :
    drawRows edge x0 py rows acc =
      (spritePoints x0 py rows).foldl (fun acc p => drawPixel edge p.1 p.2 acc) acc := by
  induction rows generalizing py acc with
  | nil => rfl
  | cons row rows ih => rw [drawRows, ih, drawColumns_eq_foldl, spritePoints, List.foldl_append]

/-- Sprite column `c` is bit `7 − c` (R212). -/
theorem mem_spritePoints (x0 py : Nat) (rows : List Byte) (p : Nat × Nat) :
    p ∈ spritePoints x0 py rows ↔
      ∃ (r c : Nat) (h : r < rows.length), c < 8 ∧ (rows[r]).getLsbD (7 - c) = true ∧ p = (x0 + c, py + r) := by
  induction rows generalizing py with
  | nil => simp [spritePoints]
  | cons row rows ih =>
    have h8 : ∀ c, c ∈ [0, 1, 2, 3, 4, 5, 6, 7] ↔ c < 8 := fun c => by
      simp only [List.mem_cons, List.not_mem_nil, or_false]; omega
    rw [spritePoints, List.mem_append, ih]
    simp only [List.mem_map, List.mem_filter, h8, spriteBit]
    constructor
    · rintro (⟨c, ⟨hc, hb⟩, rfl⟩ | ⟨r, c, hr, hc, hb, rfl⟩)
      · exact ⟨0, c, by simp, hc, hb, rfl⟩
      · exact ⟨r + 1, c, by simpa using hr, hc, hb, by rw [Nat.add_assoc, Nat.add_comm 1]⟩
    · rintro ⟨r, c, hr, hc, hb, rfl⟩
      cases r with
      | zero => exact .inl ⟨c, ⟨hc, hb⟩, rfl⟩
      | succ r =>
        exact .inr ⟨r, c, by simpa using hr, hc, hb, by rw [Nat.add_assoc, Nat.add_comm 1]⟩

/-- "A sprite never overlaps itself" (R211): 8 wide on 64 columns and at most 32 tall on 32 rows. -/
theorem landsOn_injective {edge : DrawEdge} {x0 y0 r r' c c' : Nat} {a : Fin 64} {b : Fin 32} (hc : c < 8) (hc' : c' < 8)
    (hr : r < 32) (hr' : r' < 32) (h : LandsOn edge (x0 + c) (y0 + r) a b) (h' : LandsOn edge (x0 + c') (y0 + r') a b) :
    c = c' ∧ r = r' := by
  cases edge <;> simp only [LandsOn] at h h' <;> omega

theorem spritePoints_nodup (x0 py : Nat) (rows : List Byte) : (spritePoints x0 py rows).Nodup := by
  induction rows generalizing py with
  | nil => exact List.nodup_nil
  | cons row rows ih =>
    rw [spritePoints, List.nodup_append]
    refine ⟨List.Nodup.map (fun a b h => by simpa using h) (List.Nodup.filter _ (by decide)), ih _, ?_⟩
    rintro p hp q hq rfl
    obtain ⟨c, -, rfl⟩ := List.mem_map.1 hp
    obtain ⟨r, c', -, -, -, h⟩ := (mem_spritePoints ..).1 hq
    simp only [Prod.mk.injEq] at h
    omega

theorem spritePoints_disjoint (edge : DrawEdge) (x0 py : Nat) (rows : List Byte) (hlen : rows.length ≤ 32) :
    (spritePoints x0 py rows).Pairwise fun p q => ∀ a b, LandsOn edge p.1 p.2 a b → ¬ LandsOn edge q.1 q.2 a b := by
  refine List.Pairwise.imp_of_mem (fun {p q} hp hq hne a b h h' => ?_) (spritePoints_nodup x0 py rows)
  obtain ⟨r, c, hr, hc, -, rfl⟩ := (mem_spritePoints ..).1 hp
  obtain ⟨r', c', hr', hc', -, rfl⟩ := (mem_spritePoints ..).1 hq
  obtain ⟨rfl, rfl⟩ := landsOn_injective hc hc' (by omega) (by omega) h h'
  exact hne rfl

/-- A 1-bit of one of the rows lands on `(a, b)`. -/
def RowsCover (edge : DrawEdge) (x0 y0 : Nat) (rows : List Byte) (a : Fin 64) (b : Fin 32) : Prop :=
  ∃ (r c : Nat) (h : r < rows.length), c < 8 ∧ (rows[r]).getLsbD (7 - c) = true ∧
    LandsOn edge (x0 + c) (y0 + r) a b

theorem rowsCover_iff (edge : DrawEdge) (x0 y0 : Nat) (rows : List Byte) (a : Fin 64) (b : Fin 32) :
    RowsCover edge x0 y0 rows a b ↔ ∃ p ∈ spritePoints x0 y0 rows, LandsOn edge p.1 p.2 a b := by
  constructor
  · rintro ⟨r, c, hr, hc, hb, hl⟩
    exact ⟨_, (mem_spritePoints ..).2 ⟨r, c, hr, hc, hb, rfl⟩, hl⟩
  · rintro ⟨p, hp, hl⟩
    obtain ⟨r, c, hr, hc, hb, rfl⟩ := (mem_spritePoints ..).1 hp
    exact ⟨r, c, hr, hc, hb, hl⟩

/-- All that a blit of at most 32 rows does. -/
theorem drawRows_spec (edge : DrawEdge) (x0 y0 : Nat) (rows : List Byte) (fb : Framebuffer) (hlen : rows.length ≤ 32) :
    (∀ a b, RowsCover edge x0 y0 rows a b →
      Framebuffer.pixel (drawRows edge x0 y0 rows (fb, false)).1 a b = !Framebuffer.pixel fb a b) ∧
    (∀ a b, ¬ RowsCover edge x0 y0 rows a b →
      Framebuffer.pixel (drawRows edge x0 y0 rows (fb, false)).1 a b = Framebuffer.pixel fb a b) ∧
    ((drawRows edge x0 y0 rows (fb, false)).2 = true ↔
      ∃ a b, RowsCover edge x0 y0 rows a b ∧ Framebuffer.pixel fb a b = true) := by
  obtain ⟨h1, h2, h3⟩ :=
    foldl_drawPixel_spec edge (spritePoints x0 y0 rows) (fb, false) (spritePoints_disjoint edge x0 y0 rows hlen)
  rw [drawRows_eq_foldl]
  refine ⟨fun a b h => h1 a b ((rowsCover_iff ..).1 h), fun a b h => h2 a b fun p hp hl =>
    h ((rowsCover_iff ..).2 ⟨p, hp, hl⟩), h3.trans ?_⟩
  simp only [Bool.false_eq_true, false_or, rowsCover_iff]
  constructor
  · rintro ⟨p, hp, a, b, hl, hpx⟩
    exact ⟨a, b, ⟨p, hp, hl⟩, hpx⟩
  · rintro ⟨a, b, ⟨p, hp, hl⟩, hpx⟩
    exact ⟨p, hp, a, b, hl, hpx⟩

end Sys2Proof.Machine
end

