-- ==== Sys2Proof/Laws/Exec.lean ====
section
/-! SUPPORT. What the instructions that can raise a fault answer when they complete: the condition they completed under
and the state they give. The other meanings are one record update each. -/

namespace Sys2Proof.Machine

theorem exec_ret_next {s t : State} (h : exec .ret s = .next t) :
    ∃ hs : 0 < s.sp.val, t = { s with pc := topEntry s, sp := ⟨s.sp.val - 1, by omega⟩ } := by
  simp only [exec, execRet] at h
  rcases pop_cases s (instrPc s) with ⟨hs, e⟩ | ⟨-, e⟩ <;> simp only [e] at h <;> cases h
  exact ⟨hs, rfl⟩

theorem exec_call_next {nnn : Index} {s t : State} (h : exec (.call nnn) s = .next t) :
    ∃ hs : s.sp.val < 16, t =
      { s with pc := jumpTarget nnn, stack := s.stack.set s.sp.val s.pc, sp := ⟨s.sp.val + 1, by omega⟩ } := by
  simp only [exec, execCall] at h
  rcases push_cases s (instrPc s) s.pc with ⟨hs, e⟩ | ⟨-, e⟩ <;> simp only [e] at h <;> cases h
  exact ⟨hs, rfl⟩

theorem exec_drw_next {x y : Reg} {n : Nibble} {s t : State} (h : exec (.drw x y n) s = .next t) :
    (∀ r < n.toNat, s.i.toNat + r ≤ 0xFFF) ∧ ∃ (fb : Framebuffer) (coll : Bool),
      drawRows s.cfg.drawEdge (startColumn s x) (startRow s y)
        ((List.range n.toNat).map fun k => s.readByte (dataBase s + k)) (s.fb, false) = (fb, coll) ∧
      t = ({ s with fb := fb } : State).setV vf (flagByte coll) := by
  simp only [exec, execDrw] at h
  rcases memReads_cases s (instrPc s) (dataBase s) n.toNat with ⟨hr, e⟩ | ⟨k, -, -, -, e⟩ <;> simp only [e] at h <;>
    cases h
  exact ⟨hr, _, _, rfl, rfl⟩

theorem exec_storeBcd_next {x : Reg} {s t : State} (h : exec (.storeBcd x) s = .next t) :
    (∀ k < 3, StoreAllowed s (dataBase s + k)) ∧ OnlyBytes (dataBase s) 3 s t ∧
      (MemoryCanonical s → MemoryCanonical t) := by
  simp only [exec, execStoreBcd] at h
  rcases memWrites_cases s (instrPc s) (dataBase s) (decimalDigits (s.getV x)) with ha | ⟨k, -, -, -, e⟩
  · obtain ⟨t', e, ho, hc⟩ := memWrites_ok s (instrPc s) (dataBase s) _ ha
    rw [e] at h; cases h
    exact ⟨ha, ho, fun hm => (hc hm).1⟩
  · rw [e] at h; cases h

theorem exec_storeRegs_next {x : Reg} {s t : State} (h : exec (.storeRegs x) s = .next t) :
    (∀ k ≤ x.val, StoreAllowed s (dataBase s + k)) ∧ OnlyBytes (dataBase s) (x.val + 1) s t ∧
      (MemoryCanonical s → MemoryCanonical t) := by
  simp only [exec, execStoreRegs] at h
  rcases memWrites_cases s (instrPc s) (dataBase s) (regBlock s x) with ha | ⟨k, -, -, -, e⟩
  · obtain ⟨t', e, ho, hc⟩ := memWrites_ok s (instrPc s) (dataBase s) _ ha
    rw [e] at h; cases h
    rw [regBlock_length] at ho ha
    exact ⟨fun k hk => ha k (by omega), ho, fun hm => (hc hm).1⟩
  · rw [e] at h; cases h

theorem exec_loadRegs_next {x : Reg} {s t : State} (h : exec (.loadRegs x) s = .next t) :
    dataBase s + x.val ≤ 0xFFF ∧ ∃ w, t = { s with v := w } ∧
      ∀ j : Reg, t.getV j = if j ≤ x then s.readByte (dataBase s + j.val) else s.getV j := by
  simp only [exec, execLoadRegs] at h
  rcases memReads_cases s (instrPc s) (dataBase s) (x.val + 1) with ⟨hr, e⟩ | ⟨k, -, -, -, e⟩ <;> simp only [e] at h <;>
    cases h
  refine ⟨hr x.val (by omega), _, State.setVs_eq _ _ _, fun j => ?_⟩
  rw [State.getV_setVs]
  by_cases hj : j ≤ x
  · have hj' : j.val ≤ x.val := hj
    rw [dif_pos ⟨by omega, by simp; omega⟩, if_pos hj]; simp
  · have hj' : ¬ j.val ≤ x.val := hj
    rw [dif_neg (by simp; omega), if_neg hj]

end Sys2Proof.Machine
end

