-- ==== Sys2Proof/Laws/Host.lean ====
section
/-! SUPPORT. What an operation of the host can do, guards included: every invariant of the host's operations is a case
analysis of `hostDo_cases`. -/

namespace Sys2Proof.Machine

theorem hostStep_cases {s t : State} (h : (hostStep s).state? = some t) :
    (∃ u, step s = .next u ∧ t = u.beginRun) ∨ ∃ f, step s = .fault f ∧ t = latchFault s f := by
  simp only [hostStep] at h
  cases hs : step s <;> rw [hs] at h <;> cases h
  · exact .inl ⟨_, rfl, rfl⟩
  · exact .inr ⟨_, rfl, rfl⟩

theorem loadRom_cases {s t : State} {bytes : List Byte} (h : (loadRom s bytes).state? = some t) :
    s.boot = .awaitingRom ∧ ((romWellFormed bytes = true ∧ t = (s.pokeBytes romBase bytes).beginRun) ∨
      (romWellFormed bytes = false ∧ t = s)) := by
  simp only [loadRom] at h
  split at h
  · cases h
  · split at h <;> cases h <;> simp_all

theorem hostDo_cases {op : HostOp} {s t : State} (h : (hostDo op s).state? = some t) :
    (op = .reset ∧ t = machineReset s) ∨
    (∃ bytes, op = .loadRom bytes ∧ s.run = .running ∧ (loadRom s bytes).state? = some t) ∨
    (op = .step ∧ (hostStep s).state? = some t) ∨
    (op = .tickTimers ∧ s.run = .running ∧ t = tickTimers s) ∨
    (∃ code pressed, op = .setKey code pressed ∧ s.run = .running ∧ keyWellFormed code = true ∧
      t = setKeyBit s (Fin.ofNat 16 code) pressed) := by
  rcases hr : s.run with _ | r <;> cases op <;> simp only [hostDo, hr] at h
  case running.setKey code pressed =>
    simp only [hostSetKey] at h
    by_cases hk : keyWellFormed code = true
    · rw [if_pos hk] at h; cases h
      exact .inr (.inr (.inr (.inr ⟨_, _, rfl, rfl, hk, rfl⟩)))
    · rw [if_neg hk] at h; cases h
  all_goals first
    | (cases h; done)
    | simp_all [HostReply.state?]

end Sys2Proof.Machine
end

