-- ==== Sys2Proof/Laws/PerInstr.lean ====
section
/-! SUPPORT. Laws made per instruction. Family `EncodeRow`: the word the encoder writes for an instruction matches the
row of the opcode table (30_encoding.md rule R96) that stands for it. -/

namespace Sys2Proof.Laws

/-- The encoding of an instruction matches the instruction's own row: `(op & mask) = match` (R92). -/
def EncodeRow.Statement (i : Instr) : Prop := i.row.matchesWord (encode i) = true

/-! ### A row's fixed bits are those of its format -/

theorem matches_nnn (h : Nibble) (nnn : Index) (m : String) (w : Word) (hw : h ++ 0x000#12 = w) :
    (OpcodeRow.mk m w 0xF000).matchesWord (formatNnn h nnn) = true := by
  rw [OpcodeRow.matchesWord, decide_eq_true_iff, and_mask_F000, fieldN1_formatNnn, hw]

theorem matches_xkk (h : Nibble) (x : Reg) (kk : Byte) (m : String) (w : Word) (hw : h ++ 0x000#12 = w) :
    (OpcodeRow.mk m w 0xF000).matchesWord (formatXkk h x kk) = true := by
  rw [OpcodeRow.matchesWord, decide_eq_true_iff, and_mask_F000, fieldN1_formatXkk, hw]

theorem matches_xyn (h : Nibble) (x y : Reg) (n : Nibble) (m : String) (w : Word) (hw : h ++ 0x000#12 = w) :
    (OpcodeRow.mk m w 0xF000).matchesWord (formatXyn h x y n) = true := by
  rw [OpcodeRow.matchesWord, decide_eq_true_iff, and_mask_F000, fieldN1_formatXyn, hw]

theorem matches_xy (h : Nibble) (x y : Reg) (n : Nibble) (m : String) (w : Word) (hw : (h ++ 0x00#8) ++ n = w) :
    (OpcodeRow.mk m w 0xF00F).matchesWord (formatXyn h x y n) = true := by
  rw [OpcodeRow.matchesWord, decide_eq_true_iff, and_mask_F00F, fieldN1_formatXyn, fieldN_formatXyn, hw]

theorem matches_x (h : Nibble) (x : Reg) (kk : Byte) (m : String) (w : Word) (hw : (h ++ 0x0#4) ++ kk = w) :
    (OpcodeRow.mk m w 0xF0FF).matchesWord (formatXkk h x kk) = true := by
  rw [OpcodeRow.matchesWord, decide_eq_true_iff, and_mask_F0FF, fieldN1_formatXkk, fieldKk_formatXkk, hw]

theorem EncodeRow.cls : EncodeRow.Statement (.cls) := by rfl
theorem EncodeRow.ret : EncodeRow.Statement (.ret) := by rfl
theorem EncodeRow.jp (nnn : Index) : EncodeRow.Statement (.jp nnn) := matches_nnn _ nnn _ _ (by decide)
theorem EncodeRow.call (nnn : Index) : EncodeRow.Statement (.call nnn) := matches_nnn _ nnn _ _ (by decide)
theorem EncodeRow.seImm (x : Reg) (kk : Byte) : EncodeRow.Statement (.seImm x kk) := matches_xkk _ x kk _ _ (by decide)
theorem EncodeRow.sneImm (x : Reg) (kk : Byte) : EncodeRow.Statement (.sneImm x kk) := matches_xkk _ x kk _ _ (by decide)
theorem EncodeRow.seReg (x y : Reg) : EncodeRow.Statement (.seReg x y) := matches_xy _ x y _ _ _ (by decide)
theorem EncodeRow.ldImm (x : Reg) (kk : Byte) : EncodeRow.Statement (.ldImm x kk) := matches_xkk _ x kk _ _ (by decide)
theorem EncodeRow.addImm (x : Reg) (kk : Byte) : EncodeRow.Statement (.addImm x kk) := matches_xkk _ x kk _ _ (by decide)
theorem EncodeRow.ldReg (x y : Reg) : EncodeRow.Statement (.ldReg x y) := matches_xy _ x y _ _ _ (by decide)
theorem EncodeRow.orReg (x y : Reg) : EncodeRow.Statement (.orReg x y) := matches_xy _ x y _ _ _ (by decide)
theorem EncodeRow.andReg (x y : Reg) : EncodeRow.Statement (.andReg x y) := matches_xy _ x y _ _ _ (by decide)
theorem EncodeRow.xorReg (x y : Reg) : EncodeRow.Statement (.xorReg x y) := matches_xy _ x y _ _ _ (by decide)
theorem EncodeRow.addReg (x y : Reg) : EncodeRow.Statement (.addReg x y) := matches_xy _ x y _ _ _ (by decide)
theorem EncodeRow.subReg (x y : Reg) : EncodeRow.Statement (.subReg x y) := matches_xy _ x y _ _ _ (by decide)
theorem EncodeRow.shr (x y : Reg) : EncodeRow.Statement (.shr x y) := matches_xy _ x y _ _ _ (by decide)
theorem EncodeRow.subn (x y : Reg) : EncodeRow.Statement (.subn x y) := matches_xy _ x y _ _ _ (by decide)
theorem EncodeRow.shl (x y : Reg) : EncodeRow.Statement (.shl x y) := matches_xy _ x y _ _ _ (by decide)
theorem EncodeRow.sneReg (x y : Reg) : EncodeRow.Statement (.sneReg x y) := matches_xy _ x y _ _ _ (by decide)
theorem EncodeRow.ldIndex (nnn : Index) : EncodeRow.Statement (.ldIndex nnn) := matches_nnn _ nnn _ _ (by decide)
theorem EncodeRow.jpV0 (nnn : Index) : EncodeRow.Statement (.jpV0 nnn) := matches_nnn _ nnn _ _ (by decide)
theorem EncodeRow.rnd (x : Reg) (kk : Byte) : EncodeRow.Statement (.rnd x kk) := matches_xkk _ x kk _ _ (by decide)
theorem EncodeRow.drw (x y : Reg) (n : Nibble) : EncodeRow.Statement (.drw x y n) := matches_xyn _ x y n _ _ (by decide)
theorem EncodeRow.skp (x : Reg) : EncodeRow.Statement (.skp x) := matches_x _ x _ _ _ (by decide)
theorem EncodeRow.sknp (x : Reg) : EncodeRow.Statement (.sknp x) := matches_x _ x _ _ _ (by decide)
theorem EncodeRow.ldDelay (x : Reg) : EncodeRow.Statement (.ldDelay x) := matches_x _ x _ _ _ (by decide)
theorem EncodeRow.waitKey (x : Reg) : EncodeRow.Statement (.waitKey x) := matches_x _ x _ _ _ (by decide)
theorem EncodeRow.setDelay (x : Reg) : EncodeRow.Statement (.setDelay x) := matches_x _ x _ _ _ (by decide)
theorem EncodeRow.setSound (x : Reg) : EncodeRow.Statement (.setSound x) := matches_x _ x _ _ _ (by decide)
theorem EncodeRow.addIndex (x : Reg) : EncodeRow.Statement (.addIndex x) := matches_x _ x _ _ _ (by decide)
theorem EncodeRow.ldFont (x : Reg) : EncodeRow.Statement (.ldFont x) := matches_x _ x _ _ _ (by decide)
theorem EncodeRow.storeBcd (x : Reg) : EncodeRow.Statement (.storeBcd x) := matches_x _ x _ _ _ (by decide)
theorem EncodeRow.storeRegs (x : Reg) : EncodeRow.Statement (.storeRegs x) := matches_x _ x _ _ _ (by decide)
theorem EncodeRow.loadRegs (x : Reg) : EncodeRow.Statement (.loadRegs x) := matches_x _ x _ _ _ (by decide)

end Sys2Proof.Laws
end

