-- ==== Sys2Proof/Tests/Slice0.lean ====
section
/-! SUPPORT. The model's own tests: words written out bit by bit from the patterns of 30_encoding.md, the vectors of
95_test_vectors.md (named by their ids T-…), and for every statement with hypotheses a concrete state and operands that
meet them. Nothing here is a claim about the machine. -/

namespace Sys2Proof.Tests

open Sys2Proof Sys2Proof.Machine

-- One theorem at a time: these are many and small, and each elaboration thread reserves its whole stack.
set_option Elab.async false

/-! ### What the host hands over (WellFormed.lean) -/

theorem test_romNotEmpty_refuses_empty : romNotEmpty [] = false := by decide +kernel
theorem test_romFits_refuses_3585 : romFits (List.replicate 3585 0x00) = false := by
  simp only [romFits, romMax, List.length_replicate]; decide
theorem test_romFits_accepts_3584 : romFits (List.replicate 3584 0x00) = true := by
  simp only [romFits, romMax, List.length_replicate]; decide
theorem test_romWellFormed_refuses : romWellFormed [] = false ∧ romWellFormed [0x12, 0x34] = true := by decide +kernel
theorem test_keyWellFormed_refuses_16 : keyWellFormed 16 = false ∧ keyWellFormed 15 = true := by decide +kernel
theorem test_every_instr_wellFormed : instrSamples.all Instr.wellFormed = true := by decide +kernel

/-! ### Decoding: every constructor, its word written from its pattern (R91, R92, R96) -/

theorem test_decode_fixed : decodeWord 0b0000000011100000#16 = .ok .cls ∧ decodeWord 0b0000000011101110#16 = .ok .ret := by
  decide +kernel
theorem test_decode_nnn :
    decodeWord 0b0001001000110100#16 = .ok (.jp 0x234) ∧ decodeWord 0b0010111111111111#16 = .ok (.call 0xFFF) ∧
    decodeWord 0b1010001011110000#16 = .ok (.ldIndex 0x2F0) ∧ decodeWord 0b1011001100000001#16 = .ok (.jpV0 0x301) := by
  decide +kernel
theorem test_decode_xkk :
    decodeWord 0b0011101000000101#16 = .ok (.seImm 0xA 0x05) ∧ decodeWord 0b0100101000000101#16 = .ok (.sneImm 0xA 0x05) ∧
    decodeWord 0b0110101000101011#16 = .ok (.ldImm 0xA 0x2B) ∧ decodeWord 0b0111000011111111#16 = .ok (.addImm 0 0xFF) ∧
    decodeWord 0b1100111100001111#16 = .ok (.rnd 0xF 0x0F) := by decide +kernel
theorem test_decode_xy :
    decodeWord 0b0101000100100000#16 = .ok (.seReg 1 2) ∧ decodeWord 0b1001101010110000#16 = .ok (.sneReg 0xA 0xB) := by
  decide +kernel
theorem test_decode_alu_low :
    decodeWord 0b1000000100100000#16 = .ok (.ldReg 1 2) ∧ decodeWord 0b1000000100100001#16 = .ok (.orReg 1 2) ∧
    decodeWord 0b1000000100100010#16 = .ok (.andReg 1 2) ∧ decodeWord 0b1000000100100011#16 = .ok (.xorReg 1 2) ∧
    decodeWord 0b1000000100100100#16 = .ok (.addReg 1 2) := by decide +kernel
theorem test_decode_alu_high :
    decodeWord 0b1000000100100101#16 = .ok (.subReg 1 2) ∧ decodeWord 0b1000000100100110#16 = .ok (.shr 1 2) ∧
    decodeWord 0b1000000100100111#16 = .ok (.subn 1 2) ∧ decodeWord 0b1000101010111110#16 = .ok (.shl 0xA 0xB) := by decide +kernel
theorem test_decode_draw_and_keys :
    decodeWord 0b1101000000010101#16 = .ok (.drw 0 1 5) ∧ decodeWord 0b1110111110011110#16 = .ok (.skp 0xF) ∧
    decodeWord 0b1110000010100001#16 = .ok (.sknp 0) := by decide +kernel
theorem test_decode_timers_and_wait :
    decodeWord 0b1111001000000111#16 = .ok (.ldDelay 2) ∧ decodeWord 0b1111001100001010#16 = .ok (.waitKey 3) ∧
    decodeWord 0b1111001000010101#16 = .ok (.setDelay 2) ∧ decodeWord 0b1111001000011000#16 = .ok (.setSound 2) := by decide +kernel
theorem test_decode_index_and_memory :
    decodeWord 0b1111000100011110#16 = .ok (.addIndex 1) ∧ decodeWord 0b1111000000101001#16 = .ok (.ldFont 0) ∧
    decodeWord 0b1111000000110011#16 = .ok (.storeBcd 0) ∧ decodeWord 0b1111001001010101#16 = .ok (.storeRegs 2) ∧
    decodeWord 0b1111111101100101#16 = .ok (.loadRegs 0xF) := by decide +kernel

/-- The list of 95_test_vectors.md, section 2.1: each of these words raises DecodeError. -/
def unassignedWords : List Word :=
  [0x0000, 0x00E1, 0x00EF, 0x00FE, 0x0123, 0x0FFF, 0x5121, 0x512F, 0x9121, 0x912F, 0x8128, 0x8129, 0x812A, 0x812B]
  ++ [0x812C, 0x812D, 0x812F, 0xE000, 0xE09F, 0xE1A0, 0xE19F, 0xF000, 0xF030, 0xF075, 0xF085, 0xF1FF, 0xFFFF]

theorem test_unassigned_words :
    unassignedWords.map decodeWord = unassignedWords.map fun op => .error (.unassigned op) := by decide +kernel
theorem test_decodeBytes_big_endian : decodeBytes [0x12, 0x34, 0x56] = .ok (.jp 0x234, [0x56]) := by decide +kernel
theorem test_decodeBytes_truncated : decodeBytes [0x12] = .error .truncated := by decide +kernel
theorem test_decodeTableWord : decodeTableWord 16 0x6A2B = some (.ldImm 0xA 0x2B) ∧ decodeTableWord 16 0x5121 = none := by
  decide +kernel
theorem test_table_rows_differ : opcodeTable.Pairwise fun r q =>
    r.matchBits &&& r.mask &&& q.mask ≠ q.matchBits &&& r.mask &&& q.mask := by decide +kernel

/-! ### Helpers -/

/-- The state after reset with register values put in. -/
def withV (regs : List (Reg × Byte)) (s : State := State.reset) : State := regs.foldl (fun s r => s.setV r.1 r.2) s
/-- Bytes put into memory. -/
def withMem (a : Nat) (bs : List Byte) (s : State := State.reset) : State := s.pokeBytes a bs
/-- Pixels put onto the screen. -/
def withPixels (ps : List (Fin 64 × Fin 32)) (s : State := State.reset) : State :=
  { s with fb := ps.foldl (fun fb p => Framebuffer.flip fb p.1 p.2) s.fb }
/-- The result of one step of the word `op` placed at PC. -/
def run1 (op : Nat) (s : State) : Result := step (s.withFetchWord 16 op)
/-- What `f` reads from the next state, if there is one. -/
def seen {α : Type} (r : Result) (f : State → α) : Option α :=
  match r with
  | .next t => some (f t)
  | _ => none
/-- The record of a fault, if there is one. -/
def record (r : Result) : Option Fault :=
  match r with
  | .fault f => some f
  | _ => none
/-- The state after reset of a machine with other parameters. -/
def machine (c : Config) : State := State.resetWith c 0

/-! ### Fetch and faults -/

theorem test_TF1 : record (step ({ State.reset with pc := 0xFFF } : State)) = some (.boundsError (.memRead 0x1000) 0xFFF) := by
  decide +kernel
theorem test_TF3 : record (step ({ State.reset with pc := 0x10FE } : State)) = some (.boundsError (.memRead 0x10FE) 0x10FE) := by
  decide +kernel
theorem test_TF4_odd_address : seen (run1 0x6123 ({ State.reset with pc := 0x201 } : State)) (fun t => (t.getV 1, t.pc)) =
    some (0x23, 0x203) := by decide +kernel
theorem test_TF5_no_rom : record (step State.reset) = some (.decodeError 0x0000 0x200) := by decide +kernel
theorem test_fault_then_refused :
    hostRun [.step, .step] State.reset = none ∧ (hostRun [.step, .reset] State.reset).isSome = true := by decide +kernel

/-! ### Control flow -/

theorem test_TCF1_ret :
    seen (run1 0x00EE ({ State.reset with pc := 0x300, sp := 1, stack := State.reset.stack.set 0 0x204 } : State))
      (fun t => (t.pc, t.sp, t.stack[0])) = some (0x204, 0, 0x204) := by decide +kernel
theorem test_TCF2_ret_empty : record (run1 0x00EE State.reset) = some (.boundsError .stackUnderflow 0x200) := by decide +kernel
theorem test_TCF5_jp : seen (run1 0x1FFF State.reset) (·.pc) = some 0xFFF := by decide +kernel
theorem test_TCF8_call : seen (run1 0x2300 ({ State.reset with pc := 0xFFE } : State)) (fun t => (t.pc, t.sp, t.stack[0])) =
    some (0x300, 1, 0x1000) := by decide +kernel
theorem test_TCF7_call_full : record (run1 0x2300 ({ State.reset with sp := 16 } : State)) =
    some (.boundsError .stackOverflow 0x200) := by decide +kernel
theorem test_TCF10_jpV0 : seen (run1 0xBFFF (withV [(0, 0xFF)])) (·.pc) = some 0x10FE := by decide +kernel
theorem test_TCF11_se : seen (run1 0x3A05 (withV [(10, 0x05)])) (·.pc) = some 0x204 := by decide +kernel
theorem test_TCF22_se_end : seen (run1 0x3000 ({ State.reset with pc := 0xFFE } : State)) (·.pc) = some 0x1002 := by decide +kernel
theorem test_TCF13_sne : seen (run1 0x4A05 (withV [(10, 0x05)])) (·.pc) = some 0x202 := by decide +kernel
theorem test_TCF14_sne : seen (run1 0x4A05 (withV [(10, 0x06)])) (·.pc) = some 0x204 := by decide +kernel
theorem test_TCF15_se_reg : seen (run1 0x5120 (withV [(1, 0x7F), (2, 0x7F)])) (·.pc) = some 0x204 := by decide +kernel
theorem test_TCF16_se_reg : seen (run1 0x5120 (withV [(1, 0x7F), (2, 0x7E)])) (·.pc) = some 0x202 := by decide +kernel
theorem test_TCF18_sne_reg : seen (run1 0x9120 (withV [(1, 0x01), (2, 0x02)])) (·.pc) = some 0x204 := by decide +kernel
theorem test_TCF20_sne_reg : seen (run1 0x9330 (withV [(3, 0x09)])) (·.pc) = some 0x202 := by decide +kernel

/-! ### Load, arithmetic, logic, random -/

theorem test_TA1_ld : seen (run1 0x6A2B State.reset) (fun t => (t.getV 10, t.pc)) = some (0x2B, 0x202) := by decide +kernel
theorem test_TA2_ld_vf : seen (run1 0x6FFF State.reset) (·.getV 15) = some 0xFF := by decide +kernel
theorem test_TA3_add_imm : seen (run1 0x7002 (withV [(0, 0xFF)])) (fun t => (t.getV 0, t.getV 15)) = some (0x01, 0x00) := by
  decide +kernel
theorem test_TA4_add_imm_vf : seen (run1 0x7FFF State.reset) (·.getV 15) = some 0xFF := by decide +kernel
theorem test_TA6_copy : seen (run1 0x8120 (withV [(2, 0x77)])) (·.getV 1) = some 0x77 := by decide +kernel
theorem test_TA8_or : seen (run1 0x8121 (withV [(1, 0xF0), (2, 0x0F), (15, 0xAA)])) (fun t => (t.getV 1, t.getV 15)) =
    some (0xFF, 0xAA) := by decide +kernel
theorem test_TA9_and : seen (run1 0x8122 (withV [(1, 0xF3), (2, 0x3F), (15, 0xAA)])) (fun t => (t.getV 1, t.getV 15)) =
    some (0x33, 0xAA) := by decide +kernel
theorem test_TA10_xor : seen (run1 0x8123 (withV [(1, 0xFF), (2, 0x0F), (15, 0xAA)])) (fun t => (t.getV 1, t.getV 15)) =
    some (0xF0, 0xAA) := by decide +kernel
theorem test_TA13_add : seen (run1 0x8124 (withV [(1, 0xFE), (2, 0x01), (15, 0x01)])) (fun t => (t.getV 1, t.getV 15)) =
    some (0xFF, 0x00) := by decide +kernel
theorem test_TA18_add_vf : seen (run1 0x81F4 (withV [(1, 0xFF), (15, 0x01)])) (fun t => (t.getV 1, t.getV 15)) =
    some (0x00, 0x01) := by decide +kernel
theorem test_TA21_sub : seen (run1 0x8125 (withV [(1, 0x03), (2, 0x05), (15, 0x01)])) (fun t => (t.getV 1, t.getV 15)) =
    some (0xFE, 0x00) := by decide +kernel
theorem test_TA22_sub_equal : seen (run1 0x8125 (withV [(1, 0x07), (2, 0x07)])) (fun t => (t.getV 1, t.getV 15)) =
    some (0x00, 0x01) := by decide +kernel
theorem test_TA27_subn : seen (run1 0x8127 (withV [(1, 0x03), (2, 0x05)])) (fun t => (t.getV 1, t.getV 15)) =
    some (0x02, 0x01) := by decide +kernel
theorem test_TA31_subn_vf : seen (run1 0x8F17 (withV [(15, 0x05), (1, 0x03)])) (·.getV 15) = some 0x00 := by decide +kernel
theorem test_TS1_shr :
    seen (run1 0x8126 (withV [(1, 0x05), (2, 0x08)])) (fun t => (t.getV 1, t.getV 15, t.getV 2)) = some (0x02, 0x01, 0x08) ∧
    seen (run1 0x8126 (withV [(1, 0x05), (2, 0x08)] (machine { defaultConfig with shiftSource := .vy })))
      (fun t => (t.getV 1, t.getV 15, t.getV 2)) = some (0x04, 0x00, 0x08) := by decide +kernel
theorem test_TS3_shr_vf :
    seen (run1 0x8F26 (withV [(15, 0x03), (2, 0x06)])) (·.getV 15) = some 0x01 ∧
    seen (run1 0x8F26 (withV [(15, 0x03), (2, 0x06)] (machine { defaultConfig with shiftSource := .vy })))
      (·.getV 15) = some 0x00 := by decide +kernel
theorem test_TS2_shl :
    seen (run1 0x812E (withV [(1, 0x81), (2, 0x40)])) (fun t => (t.getV 1, t.getV 15)) = some (0x02, 0x01) ∧
    seen (run1 0x812E (withV [(1, 0x81), (2, 0x40)] (machine { defaultConfig with shiftSource := .vy })))
      (fun t => (t.getV 1, t.getV 15)) = some (0x80, 0x00) := by decide +kernel
theorem test_TS5_shl_vf :
    seen (run1 0x8F2E (withV [(15, 0x80), (2, 0x7F)])) (·.getV 15) = some 0x01 ∧
    seen (run1 0x8F2E (withV [(15, 0x80), (2, 0x7F)] (machine { defaultConfig with shiftSource := .vy })))
      (·.getV 15) = some 0x00 := by decide +kernel
/-- T-C2: `kk = 0x00` gives 0 for every draw. -/
theorem test_TC2_rnd : ∃ t, exec (.rnd 0 0x00) (withV [(0, 0x55)]) = .next t ∧ t.getV 0 = 0x00 :=
  ⟨_, rfl, by simp [State.getV, State.setV]⟩

/-! ### Index register and memory -/

theorem test_TI2_ld_index : seen (run1 0xAFFF State.reset) (·.i) = some 0xFFF := by decide +kernel
theorem test_TI3_add_index :
    seen (run1 0xF11E (withV [(1, 0x05), (15, 0x07)] { State.reset with i := 0xFFE })) (fun t => (t.i, t.getV 15)) =
      some (0x003, 0x07) ∧
    seen (run1 0xF11E (withV [(1, 0x05), (15, 0x07)] { machine { defaultConfig with indexFlag := .on } with i := 0xFFE }))
      (fun t => (t.i, t.getV 15)) = some (0x003, 0x01) := by decide +kernel
theorem test_TI5_add_index_limit :
    seen (run1 0xF11E (withV [(1, 0xFE), (15, 0x07)] { machine { defaultConfig with indexFlag := .on } with i := 0xF01 }))
      (fun t => (t.i, t.getV 15)) = some (0xFFF, 0x00) := by decide +kernel
theorem test_TI10_ld_font : seen (run1 0xF029 (withV [(0, 0x0F)])) (·.i) = some 0x04B := by decide +kernel
theorem test_TI12_ld_font_unmasked : seen (run1 0xF029 (withV [(0, 0xFF)])) (·.i) = some 0x4FB := by decide +kernel
theorem test_TI13_bcd :
    seen (run1 0xF033 (withV [(0, 0x9C)] { State.reset with i := 0x300 }))
      (fun t => (t.readByte 0x300, t.readByte 0x301, t.readByte 0x302, t.i)) = some (0x01, 0x05, 0x06, 0x300) := by decide +kernel
theorem test_TI19_bcd_font :
    record (run1 0xF033 (withV [(0, 0x7B)] { State.reset with i := 0x04E })) = some (.boundsError (.memWrite 0x04E) 0x200) ∧
    seen (run1 0xF033 (withV [(0, 0x7B)] { machine { defaultConfig with fontWrite := .allow } with i := 0x04E }))
      (fun t => (t.readByte 0x04E, t.readByte 0x04F, t.readByte 0x050)) = some (0x01, 0x02, 0x03) := by decide +kernel
theorem test_TI22_store_block :
    seen (run1 0xF255 (withV [(0, 0x11), (1, 0x22), (2, 0x33), (3, 0x44)] { State.reset with i := 0x400 }))
      (fun t => (t.readByte 0x400, t.readByte 0x402, t.readByte 0x403, t.i)) = some (0x11, 0x33, 0x00, 0x400) := by decide +kernel
theorem test_TI25_store_block_end :
    record (run1 0xFF55 (withV [(0, 0xA0)] { State.reset with i := 0xFF1 })) =
      some (.boundsError (.memWrite 0x1000) 0x200) := by decide +kernel
theorem test_TI28_load_block_font :
    seen (run1 0xF165 State.reset) (fun t => (t.getV 0, t.getV 1, t.getV 2)) = some (0xF0, 0x90, 0x00) := by decide +kernel
theorem test_TI31_load_block_end :
    record (run1 0xF165 (withMem 0xFFF [0x77] { State.reset with i := 0xFFF })) =
      some (.boundsError (.memRead 0x1000) 0x200) := by decide +kernel

/-! ### Display -/

theorem test_TG1_cls : seen (run1 0x00E0 (withV [(15, 0x09)] (withPixels [(5, 5)])))
    (fun t => (pixelAt t 5 5, t.getV 15)) = some (false, 0x09) := by decide +kernel
theorem test_TG12_draw_column : seen (run1 0xDF01 (withV [(15, 0x03), (0, 0x02)] (withMem 0x300 [0x80] { State.reset with i := 0x300 })))
    (fun t => (pixelAt t 3 2, pixelAt t 10 2, t.getV 15)) = some (true, false, 0x00) := by decide +kernel
theorem test_TG7_draw_edge :
    seen (run1 0xD011 (withV [(0, 0x39)] (withPixels [(0, 0)] (withMem 0x300 [0x01] { State.reset with i := 0x300 }))))
      (fun t => (pixelAt t 0 0, t.getV 15)) = some (false, 0x01) ∧
    seen (run1 0xD011 (withV [(0, 0x39)] (withPixels [(0, 0)]
        (withMem 0x300 [0x01] { machine { defaultConfig with drawEdge := .clip } with i := 0x300 }))))
      (fun t => (pixelAt t 0 0, t.getV 15)) = some (true, 0x00) := by decide +kernel

/-! ### Keypad and timers -/

theorem test_TK5_skp : seen (run1 0xE19E (withV [(1, 0x1A)] { State.reset with keys := 0x0400 })) (·.pc) = some 0x204 := by
  decide +kernel
theorem test_TK7_skp : seen (run1 0xE19E { State.reset with keys := 0xFFFE }) (·.pc) = some 0x202 := by decide +kernel
theorem test_TK6_sknp : seen (run1 0xE1A1 (withV [(1, 0xFF)] { State.reset with keys := 0x8000 })) (·.pc) = some 0x202 := by
  decide +kernel
theorem test_TK4_sknp : seen (run1 0xE1A1 (withV [(1, 0x0A)])) (·.pc) = some 0x204 := by decide +kernel
theorem test_TK8_wait_stalls : seen (run1 0xF30A (withV [(3, 0x55)])) (fun t => (t.pc, t.getV 3)) = some (0x200, 0x55) := by
  decide +kernel
theorem test_TK9_wait_lowest : seen (run1 0xF30A { State.reset with keys := 0x0090 }) (fun t => (t.pc, t.getV 3)) =
    some (0x202, 0x04) := by decide +kernel
theorem test_TT1_read_delay : seen (run1 0xF207 { State.reset with dt := 0x3C }) (fun t => (t.getV 2, t.dt)) =
    some (0x3C, 0x3C) := by decide +kernel
theorem test_TT2_set_delay : seen (run1 0xF215 (withV [(2, 0x0A)])) (fun t => (t.dt, t.st)) = some (0x0A, 0x00) := by decide +kernel
theorem test_TT3_set_sound : seen (run1 0xF218 (withV [(2, 0x02)])) (fun t => (t.st, t.dt, soundActive t)) =
    some (0x02, 0x00, true) := by decide +kernel
theorem test_TT6_tick : (hostRun [.tickTimers] { State.reset with st := 0x01 }).map (fun t => (t.dt, t.st, soundActive t)) =
    some (0x00, 0x00, false) := by decide +kernel

/-! ### The host's operations -/

theorem test_TH2_empty_rom : hostDo (.loadRom []) State.reset = .failed State.reset (.romLoadError 0) := by decide +kernel
theorem test_TH5_load_rom : (hostRun [.reset, .loadRom [0x12, 0x34], .step] State.reset).map (·.pc) = some 0x234 := by decide +kernel
/-- R292: not twice, not after a step, but again after a rejected image. -/
theorem test_load_rom_in_turn :
    hostRun [.reset, .loadRom [0x12, 0x00], .loadRom [0x12, 0x00]] State.reset = none ∧
    hostRun [.reset, .loadRom [0x12, 0x00], .step, .loadRom [0x12, 0x00]] State.reset = none ∧
    hostRun [.step, .loadRom [0x12, 0x00]] (withMem 0x200 [0x12, 0x00]) = none ∧
    (hostRun [.reset, .loadRom [], .tickTimers, .loadRom [0x12, 0x00]] State.reset).isSome = true ∧
    (hostRun [.loadRom [0x12, 0x00], .reset, .loadRom [0x12, 0x00]] State.reset).isSome = true := by decide +kernel
theorem test_TH6_set_key :
    (hostRun [.setKey 3 true] State.reset).map (·.keys) = some 0x0008 ∧
    (hostRun [.setKey 3 true, .setKey 3 false] State.reset).map (·.keys) = some 0x0000 := by decide +kernel
theorem test_set_key_16 : hostDo (.setKey 16 true) State.reset = .outside (.keyCodeOutOfRange 16) := by decide +kernel

/-! ### Witnesses: states and operands that meet the hypotheses of the statements -/

/-- A state whose next instruction is the word `op`. -/
def at1 (op : Nat) (s : State := State.reset) : State := s.withFetchWord 16 op
/-- The execute phase's state for an instruction fetched from `a`. -/
def fetchedFrom (a : Word) (s : State := State.reset) : State := { s with pc := a + 2 }
/-- The parameters with stores into the font table allowed. -/
def allowFont : Config := { defaultConfig with fontWrite := .allow }

theorem witness_DecodedWordIsItsEncoding : decodeWord 0x8126 = .ok (.shr 1 2) := by decide +kernel

theorem witness_AssignedWordsAreTheTableRows :
    (decodeWord 0x8126 = .ok (.shr 1 2) ∧ Instr.row (.shr 1 2) ∈ opcodeTable) ∧
    ((∀ r ∈ opcodeTable, r.matchesWord 0x5121 = false) ∧ decodeWord 0x5121 = .error (.unassigned 0x5121)) :=
  ⟨⟨by decide +kernel, by simp [opcodeTable, instrSamples, Instr.row]⟩, by decide +kernel, by decide +kernel⟩

theorem witness_StepRunsTheDecodedInstruction :
    (at1 0x6A2B).run = .running ∧ WordAtPc (at1 0x6A2B) 0x6A2B ∧ decodeWord 0x6A2B = .ok (.ldImm 10 0x2B) :=
  ⟨rfl, ⟨by decide +kernel, by decide +kernel, by decide +kernel⟩, by decide +kernel⟩
/-- The last address a word can be fetched from. -/
theorem witness_WordAtPc_top : WordAtPc (at1 0x6007 ({ State.reset with pc := 0xFFE } : State)) 0x6007 :=
  ⟨by decide +kernel, by decide +kernel, by decide +kernel⟩

theorem witness_FetchChecksBounds :
    (({ State.reset with pc := 0x1000 } : State).run = .running ∧ 0xFFF < ({ State.reset with pc := 0x1000 } : State).pc.toNat) ∧
    (({ State.reset with pc := 0xFFF } : State).run = .running ∧ ({ State.reset with pc := 0xFFF } : State).pc.toNat = 0xFFF) ∧
    ({ State.reset with pc := 0xFFE } : State).pc.toNat < 0xFFF := by decide +kernel

theorem witness_UnassignedWordRaisesDecodeError :
    State.reset.run = .running ∧ WordAtPc State.reset 0x0000 ∧ ∀ r ∈ opcodeTable, r.matchesWord 0x0000 = false :=
  ⟨rfl, ⟨by decide +kernel, by decide +kernel, by decide +kernel⟩, by decide +kernel⟩

theorem witness_OnlyAFaultedMachineIsRefused :
    step (latchFault State.reset (.decodeError 0 0x200)) = .refused (.stepAfterFault (.decodeError 0 0x200)) := rfl

/-- A fetch past the end, an unassigned word, and each kind of execute-phase fault. -/
theorem witness_StepFaultsOnlyAsListed :
    record (step ({ State.reset with pc := 0x1000 } : State)) = some (.boundsError (.memRead 0x1000) 0x1000) ∧
    record (step State.reset) = some (.decodeError 0x0000 0x200) ∧
    record (step (at1 0x00EE)) = some (.boundsError .stackUnderflow 0x200) ∧
    record (step (at1 0x2300 ({ State.reset with sp := 16 } : State))) = some (.boundsError .stackOverflow 0x200) ∧
    record (step (at1 0xD012 ({ State.reset with i := 0xFFF } : State))) = some (.boundsError (.memRead 0x1000) 0x200) ∧
    record (step (at1 0xF033)) = some (.boundsError (.memWrite 0x000) 0x200) := by decide +kernel

theorem witness_FaultCommitsNothingButRun :
    step State.reset = .fault (.decodeError 0x0000 0x200) ∧ HostOp.tickTimers ≠ .reset := ⟨by rfl, by decide⟩

theorem witness_OnlyRandomReadsTheDraw : ∀ x kk, Instr.cls ≠ .rnd x kk := by simp
theorem witness_NoInstructionReadsSoundTimer : ∀ x, Instr.ldDelay 0 ≠ .setSound x := by simp

theorem witness_ReturnPopsProgramCounter :
    ((fetchedFrom 0x200).pc = 0x200 + 2 ∧ (fetchedFrom 0x200).sp.val = 0) ∧
    0 < ({ State.reset with sp := 1 } : State).sp.val ∧ 0 < ({ State.reset with sp := 16 } : State).sp.val := by decide
theorem witness_CallPushesReturnAddress :
    (({ fetchedFrom 0x200 with sp := 16 } : State).pc = 0x200 + 2 ∧ ({ fetchedFrom 0x200 with sp := 16 } : State).sp.val = 16) ∧
    (fetchedFrom 0x200).sp.val < 16 ∧ ({ State.reset with sp := 15 } : State).sp.val < 16 := by decide
/-- Both outcomes of a comparison, at the last address an instruction can be fetched from. -/
theorem witness_SkipsCompareWithImmediate :
    (fetchedFrom 0xFFE).pc = 0xFFE + 2 ∧ (fetchedFrom 0xFFE).getV 10 = 0x00 ∧ (fetchedFrom 0xFFE).getV 10 ≠ 0x05 := by decide
theorem witness_SkipsCompareRegisters :
    (fetchedFrom 0x200).pc = 0x200 + 2 ∧ (withV [(1, 5)]).getV 1 ≠ (withV [(1, 5)]).getV 2 ∧
      (withV [(1, 5)]).getV 1 = (withV [(1, 5)]).getV 1 := by decide
theorem witness_ProgramCounterAfterEveryInstruction :
    (fetchedFrom 0x200).pc = 0x200 + 2 ∧ ∃ t, exec (.jpV0 0xFFF) (fetchedFrom 0x200) = .next t := ⟨by decide, _, rfl⟩
theorem witness_ReturnUndoesCall : ∃ t, exec (.call 0x300) (fetchedFrom 0x200) = .next t := ⟨_, rfl⟩
theorem witness_CallsSucceedUntilTheStackIsFull :
    State.reset.sp.val + (List.replicate 16 (0x200 : Index)).length ≤ 16 ∧
    16 < State.reset.sp.val + (List.replicate 17 (0x200 : Index)).length := by decide
theorem witness_StaleStackEntriesAreNeverRead :
    SameButStale State.reset { State.reset with stack := State.reset.stack.set 0 0x1234 } :=
  ⟨rfl, fun k hk => absurd hk (by simp [State.reset, State.resetWith])⟩

theorem witness_AddSetsCarry :
    (1 : Reg) ≠ 15 ∧ 255 < ((withV [(1, 0xFF), (2, 1)]).getV 1).toNat + ((withV [(1, 0xFF), (2, 1)]).getV 2).toNat := by decide
theorem witness_SubtractSetsNotBorrow :
    (1 : Reg) ≠ 15 ∧ ((withV [(2, 1)]).getV 1).toNat < ((withV [(2, 1)]).getV 2).toNat := by decide
theorem witness_ShiftsSetTheBitShiftedOut :
    (0x05 : Byte) = (if (withV [(1, 5)]).cfg.shiftSource = .vx then (withV [(1, 5)]).getV 1 else (withV [(1, 5)]).getV 2) ∧
    (0x00 : Byte) = (if (machine { defaultConfig with shiftSource := .vy }).cfg.shiftSource = .vx then 0x05 else 0x00) := by
  decide
theorem witness_FlagIsWrittenOnlyAsListed :
    (setsFlag defaultConfig (.addReg 1 2) = true ∧ ∃ t, exec (.addReg 1 2) State.reset = .next t) ∧
    (setsFlag defaultConfig (.addIndex 1) = false ∧ ¬ destination (.addIndex 1) 15 ∧
      ∃ t, exec (.addIndex 1) State.reset = .next t) :=
  ⟨⟨rfl, _, rfl⟩, rfl, by simp [destination], _, rfl⟩
theorem witness_EachElementHasItsWriters :
    (∃ t, exec (.ldImm 1 2) State.reset = .next t) ∧ ¬ destination (.ldImm 1 2) 0 ∧ writesIndex (.ldImm 1 2) = false ∧
    usesStack (.ldImm 1 2) = false ∧ writesScreen (.ldImm 1 2) = false ∧ storesToMemory (.ldImm 1 2) = false :=
  ⟨⟨_, rfl⟩, by simp [destination], rfl, rfl, rfl, rfl⟩

theorem witness_AddToIndexWraps :
    State.reset.cfg.indexFlag = .off ∧ (machine { defaultConfig with indexFlag := .on }).cfg.indexFlag = .on := ⟨rfl, rfl⟩

/-- The last block that fits, the first byte that is writable, and the two kinds of forbidden byte. -/
theorem witness_StoreDecimalDigits :
    (∀ k < 3, StoreAllowed ({ State.reset with i := 0xFFD } : State) (0xFFD + k)) ∧
    (∀ k < 3, StoreAllowed ({ State.reset with i := 0x050 } : State) (0x050 + k)) ∧
    ((∀ j < 2, StoreAllowed ({ State.reset with i := 0xFFE } : State) (0xFFE + j)) ∧
      ¬ StoreAllowed ({ State.reset with i := 0xFFE } : State) (0xFFE + 2)) ∧
    ¬ StoreAllowed ({ State.reset with i := 0x04F } : State) (0x04F + 0) := by unfold StoreAllowed; decide +kernel
theorem witness_StoreRegisterBlock :
    (∀ k ≤ (15 : Reg).val, StoreAllowed (machine allowFont) (dataBase (machine allowFont) + k)) ∧
    (∀ k ≤ (15 : Reg).val, StoreAllowed ({ State.reset with i := 0xFF0 } : State) (0xFF0 + k)) ∧
    ((∀ j < 15, StoreAllowed ({ State.reset with i := 0xFF1 } : State) (0xFF1 + j)) ∧
      ¬ StoreAllowed ({ State.reset with i := 0xFF1 } : State) (0xFF1 + 15)) ∧ MemoryCanonical State.reset := by
  unfold StoreAllowed MemoryCanonical; decide +kernel
theorem witness_LoadRegisterBlock :
    dataBase ({ State.reset with i := 0xFF0 } : State) + (15 : Reg).val ≤ 0xFFF ∧
    (∀ j < 15, dataBase ({ State.reset with i := 0xFF1 } : State) + j ≤ 0xFFF) ∧
    0xFFF < dataBase ({ State.reset with i := 0xFF1 } : State) + 15 := by decide +kernel
theorem witness_LoadAfterStoreRestoresRegisters :
    MemoryCanonical ({ State.reset with i := 0x300 } : State) ∧
    ∃ t, exec (.storeRegs 2) ({ State.reset with i := 0x300 } : State) = .next t :=
  ⟨by unfold MemoryCanonical; decide +kernel, _, rfl⟩
theorem witness_StoredWordIsFetchedNext :
    MemoryCanonical ({ fetchedFrom 0x200 with i := 0x202 } : State) ∧ 1 ≤ (1 : Reg).val ∧
    dataBase ({ fetchedFrom 0x200 with i := 0x202 } : State) = ({ fetchedFrom 0x200 with i := 0x202 } : State).pc.toNat ∧
    ∃ t, exec (.storeRegs 1) ({ fetchedFrom 0x200 with i := 0x202 } : State) = .next t :=
  ⟨by unfold MemoryCanonical; decide +kernel, by decide, by decide +kernel, _, rfl⟩

/-- A sprite that ends at the last byte, a pixel it covers and one it does not, and a sprite that leaves the memory. -/
theorem witness_DrawTogglesTheCoveredPixels :
    (∀ r < (1 : Nibble).toNat, (withMem 0xFFF [0x80] { State.reset with i := 0xFFF }).i.toNat + r ≤ 0xFFF) ∧
    SpriteCovers (withMem 0xFFF [0x80] { State.reset with i := 0xFFF }) 0 1 1 0 0 ∧
    ¬ SpriteCovers State.reset 0 1 0 0 0 ∧
    ((∀ r < 1, ({ State.reset with i := 0xFFF } : State).i.toNat + r ≤ 0xFFF) ∧
      0xFFF < ({ State.reset with i := 0xFFF } : State).i.toNat + 1) :=
  ⟨by decide +kernel, ⟨0, 0, by decide +kernel, by decide, by decide +kernel, by decide +kernel, by decide +kernel⟩,
    fun ⟨r, _, hr, _⟩ => absurd hr (by simp), by decide +kernel⟩
/-- Font digit 0, drawn twice. -/
theorem witness_DrawingTwiceRestoresTheScreen :
    ∃ t u, exec (.drw 0 1 5) State.reset = .next t ∧ exec (.drw 0 1 5) { t with v := State.reset.v } = .next u ∧
      (∃ px py, pixelAt State.reset px py = false ∧ pixelAt t px py = true) :=
  ⟨_, _, rfl, rfl, 0, 0, by decide +kernel, by decide +kernel⟩

/-- Selected by the low nibble of 0x1A; down, and up. -/
theorem witness_SkipsTestTheSelectedKey :
    (fetchedFrom 0x200).pc = 0x200 + 2 ∧ (10 : Key).val = ((withV [(1, 0x1A)]).getV 1).toNat % 16 ∧
    KeyDown { State.reset with keys := 0x0400 } 10 ∧ ¬ KeyDown State.reset 10 := by unfold KeyDown; decide +kernel
theorem witness_WaitKeyStallsOrTakesTheLowestKey :
    ((fetchedFrom 0x200).pc = 0x200 + 2 ∧ ∀ k, ¬ KeyDown (fetchedFrom 0x200) k) ∧
    (KeyDown { State.reset with keys := 0x0090 } 4 ∧ ∀ j < 4, ¬ KeyDown { State.reset with keys := 0x0090 } j) := by
  unfold KeyDown; decide +kernel
theorem witness_StalledWaitIsAStepThatChangesNothing :
    (at1 0xF30A).run = .running ∧ (at1 0xF30A).keys = 0 ∧ WordAtPc (at1 0xF30A) 0xF30A ∧
    decodeWord 0xF30A = .ok (.waitKey 3) :=
  ⟨rfl, rfl, ⟨by decide +kernel, by decide +kernel, by decide +kernel⟩, by decide +kernel⟩
theorem witness_TicksCountDownToZero : State.reset.run = .running := rfl

theorem witness_LoadRomCopiesTheImageOrRejectsIt :
    State.reset.run = .running ∧ State.reset.boot = .awaitingRom ∧ MemoryCanonical State.reset ∧
    (0 < (List.replicate 3584 (0x12 : Byte)).length ∧ (List.replicate 3584 (0x12 : Byte)).length ≤ 3584) ∧
    ([] : List Byte).length = 0 ∧ 3584 < (List.replicate 3585 (0x12 : Byte)).length ∧
    (State.reset.beginRun.run = .running ∧ State.reset.beginRun.boot = .underway) :=
  ⟨rfl, rfl, by unfold MemoryCanonical; decide +kernel, by simp only [List.length_replicate]; decide, rfl,
    by simp only [List.length_replicate]; decide, rfl, rfl⟩
/-- A load and then a step, and a step that faults later. -/
theorem witness_LoadRomHasNoMoveOnceTheRunHasBegun :
    (∃ t u, hostDo (.loadRom [0x12, 0x00]) State.reset = .done t ∧ hostRun [.step, .tickTimers] t = some u) ∧
    (∃ t u, hostDo .step (at1 0x1300) = .done t ∧ hostRun [.step] t = some u) :=
  ⟨⟨_, _, rfl, rfl⟩, _, _, rfl, rfl⟩
theorem witness_SetKeyChangesOneKey : State.reset.run = .running ∧ 15 < 16 := ⟨rfl, by decide⟩
/-- T-CF4: `1200` at 0x200. -/
theorem witness_JumpToSelfIsStable :
    (at1 0x1200).run = .running ∧ (at1 0x1200).pc.toNat = (0x200 : Index).toNat ∧ WordAtPc (at1 0x1200) 0x1200 ∧
    decodeWord 0x1200 = .ok (.jp 0x200) :=
  ⟨rfl, by decide +kernel, ⟨by decide +kernel, by decide +kernel, by decide +kernel⟩, by decide +kernel⟩

/-- The invariants hold somewhere, and a step and an operation lead on from there. -/
theorem witness_CanonicalMemoryIsKept :
    MemoryCanonical (at1 0x6A2B) ∧ (∃ t, step (at1 0x6A2B) = .next t) ∧
    ∃ t, (hostDo .tickTimers State.reset).state? = some t :=
  ⟨by unfold MemoryCanonical; decide +kernel, ⟨_, rfl⟩, _, rfl⟩
theorem witness_FontTableStaysIntact : FontIntact (at1 0x6A2B) ∧ ∃ t, step (at1 0x6A2B) = .next t :=
  ⟨by unfold FontIntact; decide +kernel, _, rfl⟩
theorem witness_ProgramCounterStaysInRange : PcInRange (at1 0x6A2B) ∧ ∃ t, step (at1 0x6A2B) = .next t :=
  ⟨by unfold PcInRange; decide +kernel, _, rfl⟩

end Sys2Proof.Tests
end

section
/-! SUPPORT. The elements of state (10_state.md): what an instruction that completes may have written (R20, R22, R27),
which elements only their own instructions read (R30, R33), and what every step and every operation of the host
keeps. -/

namespace Sys2Proof.Machine

/-! ### One step (R120, R125) -/

theorem step_of_faulted {s : State} {record : Fault} (hr : s.run = .faulted record) :
    step s = .refused (.stepAfterFault record) := by simp only [step, hr]

theorem step_of_fetch_error {s : State} {f : Fault} (hr : s.run = .running) (hf : fetchInstr s = .error f) :
    step s = .fault f := by simp only [step, hr, hf]

theorem step_of_fetch_ok {s : State} {i : Instr} (hr : s.run = .running) (hf : fetchInstr s = .ok i) :
    step s = exec i (advance s) := by simp only [step, hr, hf]

/-- A step that completes has fetched an instruction and executed it. -/
theorem step_next {s t : State} (h : step s = .next t) :
    ∃ i, s.run = .running ∧ fetchInstr s = .ok i ∧ exec i (advance s) = .next t := by
  cases hr : s.run with
  | faulted record => rw [step_of_faulted hr] at h; cases h
  | running =>
    cases hf : fetchInstr s with
    | error f => rw [step_of_fetch_error hr hf] at h; cases h
    | ok i => exact ⟨i, rfl, rfl, step_of_fetch_ok hr hf ▸ h⟩

/-- A fetch succeeds only where both bytes of the word are inside the memory (R121). -/
theorem fetchInstr_pc_lt {s : State} {i : Instr} (h : fetchInstr s = .ok i) : s.pc.toNat < 0xFFF := by
  by_contra hpc
  have hword : ∃ f, fetchWord s = .error f := by
    by_cases hhi : s.pc.toNat ≤ 0xFFF
    · simp only [fetchWord, memRead_ok _ _ _ hhi, memRead_error s s.pc (s.pc.toNat + 1) (by omega)]
      exact ⟨_, rfl⟩
    · simp only [fetchWord, memRead_error s s.pc s.pc.toNat (by omega)]
      exact ⟨_, rfl⟩
  obtain ⟨f, hf⟩ := hword
  simp only [fetchInstr, hf] at h
  cases h

/-! ### What the shared operations depend on -/

theorem memReads_congr {s t : State} (hc : t.cfg = s.cfg) (hm : t.mem = s.mem) (pc : Word) (addr n : Nat) :
    memReads t pc addr n = memReads s pc addr n := by
  have hread : ∀ a, memRead t pc a = memRead s pc a := fun a => by
    simp only [memRead, State.readByte_congr hc hm]
  induction n generalizing addr with
  | zero => rfl
  | succ n ih => simp only [memReads, hread, ih]

/-! ### The stack instructions, forwards (R140, R142) -/

theorem exec_ret_of_pos {s : State} (hs : 0 < s.sp.val) :
    exec .ret s = .next { s with pc := topEntry s, sp := ⟨s.sp.val - 1, by omega⟩ } := by
  rcases pop_cases s (instrPc s) with ⟨_, e⟩ | ⟨h0, -⟩
  · simp only [exec, execRet, e]; rfl
  · omega

theorem exec_ret_of_empty {s : State} (hs : s.sp.val = 0) :
    exec .ret s = .fault (.boundsError .stackUnderflow (instrPc s)) := by
  rcases pop_cases s (instrPc s) with ⟨h0, -⟩ | ⟨_, e⟩
  · omega
  · simp only [exec, execRet, e]

theorem exec_call_of_room (nnn : Index) {s : State} (hs : s.sp.val < 16) :
    exec (.call nnn) s = .next
      { s with pc := jumpTarget nnn, stack := s.stack.set s.sp.val s.pc, sp := ⟨s.sp.val + 1, by omega⟩ } := by
  rcases push_cases s (instrPc s) s.pc with ⟨_, e⟩ | ⟨h16, -⟩
  · simp only [exec, execCall, e]; rfl
  · omega

theorem exec_call_of_full (nnn : Index) {s : State} (hs : s.sp.val = 16) :
    exec (.call nnn) s = .fault (.boundsError .stackOverflow (instrPc s)) := by
  rcases push_cases s (instrPc s) s.pc with ⟨h16, -⟩ | ⟨_, e⟩
  · omega
  · simp only [exec, execCall, e]

/-! ### The instructions with two ways to complete -/

theorem exec_waitKey_next {x : Reg} {s t : State} (h : exec (.waitKey x) s = .next t) :
    (s.keys = 0 ∧ t = s.setPc (s.pc - 2)) ∨ (s.keys ≠ 0 ∧ ∃ b, t = s.setV x b) := by
  simp only [exec, execWaitKey] at h
  cases hk : lowestKey s with
  | none =>
    rw [hk] at h; cases h
    exact .inl ⟨(noKeyDown_iff s).1 ((lowestKey_eq_none s).1 hk), rfl⟩
  | some k =>
    rw [hk] at h; cases h
    exact .inr ⟨fun h0 => (noKeyDown_iff s).2 h0 k ((lowestKey_eq_some s k).1 hk).1, _, rfl⟩

theorem exec_addIndex_next {x : Reg} {s t : State} (h : exec (.addIndex x) s = .next t) :
    (s.cfg.indexFlag = .off ∧ t = s.setI (indexSum s.i (s.getV x))) ∨
    (s.cfg.indexFlag = .on ∧ ∃ f, t = (s.setI (indexSum s.i (s.getV x))).setV vf (flagByte f)) := by
  simp only [exec, execAddIndex] at h
  cases hc : s.cfg.indexFlag <;> rw [hc] at h <;> cases h
  · exact .inl ⟨rfl, rfl⟩
  · exact .inr ⟨rfl, _, rfl⟩

/-! ### What an instruction that completes leaves unchanged (R20) -/

/-- `t` with every element that the instruction is no writer of put back to what it was in `s` (R20, R24, R29, R33, R37,
R61, R213). -/
def keepUnwritten (i : Instr) (s t : State) : State :=
  { t with
    i     := if writesIndex i then t.i else s.i
    stack := if usesStack i then t.stack else s.stack
    sp    := if usesStack i then t.sp else s.sp
    dt    := match i with | .setDelay _ => t.dt | _ => s.dt
    st    := match i with | .setSound _ => t.st | _ => s.st
    fb    := if writesScreen i then t.fb else s.fb
    mem   := if storesToMemory i then t.mem else s.mem
    keys  := s.keys
    run   := s.run
    cfg   := s.cfg
    boot  := s.boot }

theorem exec_next_frame {i : Instr} {s t : State} (h : exec i s = .next t) : t = keepUnwritten i s t := by
  cases i with
  | ret => obtain ⟨_, rfl⟩ := exec_ret_next h; rfl
  | call => obtain ⟨_, rfl⟩ := exec_call_next h; rfl
  | drw => obtain ⟨_, _, _, _, rfl⟩ := exec_drw_next h; rfl
  | storeBcd => obtain ⟨_, ⟨_, he⟩, _⟩ := exec_storeBcd_next h; rw [he]; rfl
  | storeRegs => obtain ⟨_, ⟨_, he⟩, _⟩ := exec_storeRegs_next h; rw [he]; rfl
  | loadRegs => obtain ⟨_, _, rfl, _⟩ := exec_loadRegs_next h; rfl
  | seImm | sneImm | seReg | sneReg | skp | sknp => cases h; rw [(skipIf_onlyPc _ s).2]; rfl
  | waitKey => obtain ⟨_, rfl⟩ | ⟨_, _, rfl⟩ := exec_waitKey_next h <;> rfl
  | addIndex => obtain ⟨_, rfl⟩ | ⟨_, _, rfl⟩ := exec_addIndex_next h <;> rfl
  | _ => cases h; rfl

section Frame
variable {i : Instr} {s t : State} (h : exec i s = .next t)
include h

theorem exec_next_i (hi : writesIndex i = false) : t.i = s.i := by
  rw [exec_next_frame h]; simp [keepUnwritten, hi]

theorem exec_next_stack (hi : usesStack i = false) : t.stack = s.stack ∧ t.sp = s.sp := by
  rw [exec_next_frame h]; simp [keepUnwritten, hi]

theorem exec_next_dt (hi : ∀ x, i ≠ .setDelay x) : t.dt = s.dt := by
  rw [exec_next_frame h]
  cases i with
  | setDelay x => exact absurd rfl (hi x)
  | _ => rfl

theorem exec_next_st (hi : ∀ x, i ≠ .setSound x) : t.st = s.st := by
  rw [exec_next_frame h]
  cases i with
  | setSound x => exact absurd rfl (hi x)
  | _ => rfl

theorem exec_next_fb (hi : writesScreen i = false) : t.fb = s.fb := by
  rw [exec_next_frame h]; simp [keepUnwritten, hi]

theorem exec_next_keys : t.keys = s.keys := by rw [exec_next_frame h]; rfl
theorem exec_next_run : t.run = s.run := by rw [exec_next_frame h]; rfl
theorem exec_next_cfg : t.cfg = s.cfg := by rw [exec_next_frame h]; rfl
theorem exec_next_boot : t.boot = s.boot := by rw [exec_next_frame h]; rfl

theorem exec_next_sameMemory (hi : storesToMemory i = false) : SameMemory s t :=
  State.readByte_congr (exec_next_cfg h) (by rw [exec_next_frame h]; simp [keepUnwritten, hi])

/-- A general register that is neither the destination nor the flag keeps its value (R21, R22). -/
theorem exec_next_getV (j : Reg) (hd : ¬ destination i j) (hf : setsFlag s.cfg i = true → j ≠ 15) :
    t.getV j = s.getV j := by
  cases i with
  | ldImm | addImm | ldReg | orReg | andReg | xorReg | ldDelay => cases h; exact State.getV_setV_ne s _ hd
  | rnd => cases h; exact State.getV_setV_ne (draw s).2 _ hd
  | addReg | subReg | shr | subn | shl =>
    cases h; exact (setResultFlag_onlyRegs s _ _ _).1 j (not_or.2 ⟨hd, hf rfl⟩)
  | drw => obtain ⟨_, _, _, _, rfl⟩ := exec_drw_next h; exact State.getV_setV_ne _ _ (hf rfl)
  | addIndex =>
    obtain ⟨_, rfl⟩ | ⟨hc, _, rfl⟩ := exec_addIndex_next h
    · rfl
    · exact State.getV_setV_ne _ _ (hf (by simp [setsFlag, hc]))
  | waitKey =>
    obtain ⟨_, rfl⟩ | ⟨_, _, rfl⟩ := exec_waitKey_next h
    · rfl
    · exact State.getV_setV_ne s _ hd
  | loadRegs =>
    obtain ⟨_, _, _, hv⟩ := exec_loadRegs_next h
    exact (hv j).trans (if_neg hd)
  | storeBcd => obtain ⟨_, ⟨_, he⟩, _⟩ := exec_storeBcd_next h; rw [he]; rfl
  | storeRegs => obtain ⟨_, ⟨_, he⟩, _⟩ := exec_storeRegs_next h; rw [he]; rfl
  | ret => obtain ⟨_, rfl⟩ := exec_ret_next h; rfl
  | call => obtain ⟨_, rfl⟩ := exec_call_next h; rfl
  | seImm | sneImm | seReg | sneReg | skp | sknp => cases h; rw [(skipIf_onlyPc _ s).2]; rfl
  | _ => cases h; rfl

/-- An instruction with a flag writes VF last, with the full byte of the flag (R22, R161). -/
theorem exec_next_flag (hf : setsFlag s.cfg i = true) : ∃ f, t.getV 15 = flagByte f := by
  cases i with
  | addReg | subReg | shr | subn | shl => cases h; exact ⟨_, by rw [getV_setResultFlag, if_pos rfl]⟩
  | drw => obtain ⟨_, _, f, _, rfl⟩ := exec_drw_next h; exact ⟨f, State.getV_setV_self _ vf _⟩
  | addIndex =>
    obtain ⟨hc, _⟩ | ⟨_, f, rfl⟩ := exec_addIndex_next h
    · simp [setsFlag, hc] at hf
    · exact ⟨f, State.getV_setV_self _ vf _⟩
  | _ => cases hf

end Frame

/-- Settles O28: VF is the flag byte that `exec_next_flag` gives, or a register that is not written. -/
theorem flagIsWrittenOnlyAsListed : Obligations.FlagIsWrittenOnlyAsListed := by
  intro i s t h
  refine ⟨fun hf => ?_, fun hf hd => exec_next_getV h 15 hd fun hc => ?_⟩
  · obtain ⟨f, hv⟩ := exec_next_flag h hf
    rw [hv]
    exact flagByte_eq_zero_or_one f
  · rw [hf] at hc; cases hc

/-- Settles O29: the clauses are the frame of a completing instruction, element by element. -/
theorem eachElementHasItsWriters : Obligations.EachElementHasItsWriters := fun _ _ _ h =>
  ⟨fun j hd hj => exec_next_getV h j hd fun _ => hj, exec_next_i h, exec_next_stack h, exec_next_dt h, exec_next_st h,
    fun hi x y => by rw [pixelAt, pixelAt, exec_next_fb h hi], exec_next_sameMemory h, exec_next_keys h,
    exec_next_run h, exec_next_cfg h, exec_next_boot h⟩

/-! ### PC after an instruction (R27) -/

theorem skipIf_pc_of_advanced {s : State} {a : Word} (ha : s.pc = a + 2) (c : Bool) :
    (skipIf c s).pc = if c then a + 4 else a + 2 := by
  rw [skipIf_pc, ha, BitVec.add_assoc]; rfl

theorem offsetTarget_eq (nnn : Index) (b : Byte) : offsetTarget nnn b = BitVec.ofNat 16 (nnn.toNat + b.toNat) := by
  apply BitVec.eq_of_toNat_eq
  simp [offsetTarget]

theorem exec_next_pc {i : Instr} {s t : State} {a : Word} (ha : s.pc = a + 2) (h : exec i s = .next t) :
    t.pc = pcAfter i s a := by
  cases i with
  | jp => cases h; rfl
  | jpV0 nnn => cases h; exact offsetTarget_eq nnn _
  | ret => obtain ⟨_, rfl⟩ := exec_ret_next h; rfl
  | call => obtain ⟨_, rfl⟩ := exec_call_next h; rfl
  | seImm | seReg | sneImm | sneReg => cases h; simp [skipIf_pc_of_advanced ha, pcAfter]
  | skp x => cases h; simp [skipIf_pc_of_advanced ha, pcAfter, keyPressed, keySelected_val]
  | sknp x =>
    cases h
    simp only [skipIf_pc_of_advanced ha, pcAfter, keyPressed, keySelected_val]
    cases s.keys.getLsbD ((s.getV x).toNat % 16) <;> rfl
  | waitKey =>
    obtain ⟨hk, rfl⟩ | ⟨hk, _, rfl⟩ := exec_waitKey_next h
    · exact (instrPc_of_advanced ha).trans (if_pos hk).symm
    · exact ha.trans (if_neg hk).symm
  | addIndex => obtain ⟨_, rfl⟩ | ⟨_, _, rfl⟩ := exec_addIndex_next h <;> exact ha
  | drw => obtain ⟨_, _, _, _, rfl⟩ := exec_drw_next h; exact ha
  | storeBcd => obtain ⟨_, ⟨_, he⟩, _⟩ := exec_storeBcd_next h; rw [he]; exact ha
  | storeRegs => obtain ⟨_, ⟨_, he⟩, _⟩ := exec_storeRegs_next h; rw [he]; exact ha
  | loadRegs => obtain ⟨_, _, rfl, _⟩ := exec_loadRegs_next h; exact ha
  | _ => cases h; exact ha

/-- Settles O18. -/
theorem programCounterAfterEveryInstruction : Obligations.ProgramCounterAfterEveryInstruction :=
  fun _ _ _ _ ha h => exec_next_pc ha h

/-! ### The elements that only their own instructions read (R30, R33, R127) -/

/-- The stack, ST and the number of the next draw changed, everything else as it was. -/
def State.mapUnread (f : Vector Word 16 → Vector Word 16) (g : Byte → Byte) (d : Nat → Nat) (s : State) : State :=
  { s with stack := f s.stack, st := g s.st, draws := d s.draws }

section Unread
variable (f : Vector Word 16 → Vector Word 16) (g : Byte → Byte) (d : Nat → Nat)

theorem skipIf_mapUnread (c : Bool) (s : State) : skipIf c (s.mapUnread f g d) = (skipIf c s).mapUnread f g d := by
  cases c <;> rfl

theorem setVs_mapUnread (s : State) (k : Nat) (bs : List Byte) :
    (s.mapUnread f g d).setVs k bs = (s.setVs k bs).mapUnread f g d := by
  induction bs generalizing s k with
  | nil => rfl
  | cons b bs ih =>
    simp only [State.setVs]
    split
    · exact ih (s.setV ⟨k, _⟩ b) (k + 1)
    · exact ih s (k + 1)

theorem lowestKey_mapUnread (s : State) : lowestKey (s.mapUnread f g d) = lowestKey s := rfl

/-- The operands of a block of reads are those of the unchanged state. -/
theorem memReads_mapUnread (s : State) (n : Nat) :
    memReads (s.mapUnread f g d) (instrPc (s.mapUnread f g d)) (dataBase (s.mapUnread f g d)) n =
      memReads s (instrPc s) (dataBase s) n :=
  memReads_congr (s := s) (t := s.mapUnread f g d) rfl rfl ..

/-- Stores answer alike, fault or not, whatever the unread elements hold. -/
theorem complete_memWrites_mapUnread (s : State) (pc : Word) (addr : Nat) (bs : List Byte) :
    complete (memWrites (s.mapUnread f g d) pc addr bs) =
      mapNext (State.mapUnread f g d) (complete (memWrites s pc addr bs)) := by
  induction bs generalizing s addr with
  | nil => rfl
  | cons b bs ih =>
    simp only [memWrites]
    by_cases ha : StoreAllowed s addr
    · rw [memWrite_ok _ _ _ _ ha, memWrite_ok _ _ _ _ (show StoreAllowed (s.mapUnread f g d) addr from ha)]
      exact ih (s.pokeByte addr b) (addr + 1)
    · rw [memWrite_error _ _ _ _ ha, memWrite_error _ _ _ _ (show ¬ StoreAllowed (s.mapUnread f g d) addr from ha)]
      rfl

/-- An instruction's answer does not depend on the stack, ST or the number of the next draw unless it is one of those
that work on it. -/
theorem exec_mapUnread (i : Instr) (s : State) (hf : usesStack i = true → f = id)
    (hg : (∃ x, i = .setSound x) → g = id) (hd : (∃ x kk, i = .rnd x kk) → d = id) :
    exec i (s.mapUnread f g d) = mapNext (State.mapUnread f g d) (exec i s) := by
  cases i with
  | ret =>
    obtain rfl := hf rfl
    by_cases h0 : 0 < s.sp.val
    · exact (exec_ret_of_pos (s := s.mapUnread id g d) h0).trans
        (congrArg (mapNext (State.mapUnread id g d)) (exec_ret_of_pos h0)).symm
    · have he : s.sp.val = 0 := by omega
      exact (exec_ret_of_empty (s := s.mapUnread id g d) he).trans
        (congrArg (mapNext (State.mapUnread id g d)) (exec_ret_of_empty he)).symm
  | call nnn =>
    obtain rfl := hf rfl
    by_cases h16 : s.sp.val < 16
    · exact (exec_call_of_room nnn (s := s.mapUnread id g d) h16).trans
        (congrArg (mapNext (State.mapUnread id g d)) (exec_call_of_room nnn h16)).symm
    · have hfull : s.sp.val = 16 := by omega
      exact (exec_call_of_full nnn (s := s.mapUnread id g d) hfull).trans
        (congrArg (mapNext (State.mapUnread id g d)) (exec_call_of_full nnn hfull)).symm
  | seImm | sneImm | seReg | sneReg | skp | sknp => exact congrArg Host.Outcome.next (skipIf_mapUnread f g d _ s)
  | setSound x => obtain rfl := hg ⟨x, rfl⟩; rfl
  | rnd x kk => obtain rfl := hd ⟨x, kk, rfl⟩; rfl
  | drw x y n =>
    simp only [exec, execDrw, memReads_mapUnread]
    cases memReads s (instrPc s) (dataBase s) n.toNat <;> rfl
  | loadRegs x =>
    simp only [exec, execLoadRegs, memReads_mapUnread]
    cases memReads s (instrPc s) (dataBase s) (x.val + 1) with
    | error => rfl
    | ok bytes => exact congrArg Host.Outcome.next (setVs_mapUnread f g d s 0 bytes)
  | addIndex x =>
    simp only [exec, execAddIndex, State.mapUnread]
    cases s.cfg.indexFlag <;> rfl
  | waitKey x =>
    simp only [exec, execWaitKey, lowestKey_mapUnread]
    cases lowestKey s <;> rfl
  | storeBcd x => exact complete_memWrites_mapUnread f g d s ..
  | storeRegs x => exact complete_memWrites_mapUnread f g d s ..
  | _ => rfl

end Unread

/-- Settles O44. -/
theorem noInstructionReadsSoundTimer : Obligations.NoInstructionReadsSoundTimer := fun i s b hi =>
  exec_mapUnread id (fun _ => b) id i s (fun _ => rfl) (fun ⟨x, hx⟩ => absurd hx (hi x)) (fun _ => rfl)

/-! ### Stale stack entries (R30) -/

theorem SameButStale.exists_stack {s t : State} (h : SameButStale s t) :
    ∃ K : Vector Word 16, t = { s with stack := K } ∧ ∀ k : Fin 16, k.val < s.sp.val → K[k.val] = s.stack[k.val] :=
  ⟨t.stack, h.1, h.2⟩

theorem SameAnswer.of_next {r : State → State → Prop} {a b : Result} {s t : State} (ha : a = .next s) (hb : b = .next t)
    (h : r s t) : SameAnswer r a b := by
  subst ha hb; exact h

theorem SameAnswer.of_fault {r : State → State → Prop} {a b : Result} {f : Fault} (ha : a = .fault f)
    (hb : b = .fault f) : SameAnswer r a b := by
  subst ha hb; exact rfl

/-- A return reads the entry below SP, which is not stale, and leaves fewer that are not (R32). -/
theorem exec_ret_sameButStale {s t : State} (h : SameButStale s t) :
    SameAnswer SameButStale (exec .ret s) (exec .ret t) := by
  obtain ⟨K, rfl, hK⟩ := h.exists_stack
  by_cases h0 : 0 < s.sp.val
  · have htop : topEntry { s with stack := K } = topEntry s := hK ⟨s.sp.val - 1, by omega⟩ (Nat.sub_one_lt_of_lt h0)
    refine .of_next (exec_ret_of_pos h0) (exec_ret_of_pos (s := { s with stack := K }) h0)
      ⟨by rw [htop], fun k hk => ?_⟩
    exact hK k (Nat.lt_of_lt_of_le hk (Nat.sub_le ..))
  · have he : s.sp.val = 0 := by omega
    exact .of_fault (exec_ret_of_empty he) (exec_ret_of_empty (s := { s with stack := K }) he)

/-- A call overwrites the first stale entry with the same word in both states (R31). -/
theorem exec_call_sameButStale (nnn : Index) {s t : State} (h : SameButStale s t) :
    SameAnswer SameButStale (exec (.call nnn) s) (exec (.call nnn) t) := by
  obtain ⟨K, rfl, hK⟩ := h.exists_stack
  by_cases h16 : s.sp.val < 16
  · refine .of_next (exec_call_of_room nnn h16) (exec_call_of_room nnn (s := { s with stack := K }) h16)
      ⟨rfl, fun k hk => ?_⟩
    simp only [Vector.getElem_set]
    split
    · rfl
    · exact hK k (by simp only at hk; omega)
  · have hfull : s.sp.val = 16 := by omega
    exact .of_fault (exec_call_of_full nnn hfull) (exec_call_of_full nnn (s := { s with stack := K }) hfull)

/-- Any other instruction neither reads the stack nor writes it or SP (R29). -/
theorem exec_sameButStale_of_unused {i : Instr} (hi : usesStack i = false) {s t : State} (h : SameButStale s t) :
    SameAnswer SameButStale (exec i s) (exec i t) := by
  obtain ⟨K, rfl, hK⟩ := h.exists_stack
  have hmap : exec i { s with stack := K } = mapNext (State.mapUnread (fun _ => K) id id) (exec i s) :=
    exec_mapUnread (fun _ => K) id id i s (fun hc => by rw [hi] at hc; cases hc) (fun _ => rfl) (fun _ => rfl)
  rw [hmap]
  cases he : exec i s with
  | next u =>
    obtain ⟨hstack, hsp⟩ := exec_next_stack he hi
    exact ⟨rfl, fun k hk => by rw [hstack]; exact hK k (hsp ▸ hk)⟩
  | fault f => rfl
  | refused r => rfl

theorem exec_sameButStale (i : Instr) {s t : State} (h : SameButStale s t) :
    SameAnswer SameButStale (exec i s) (exec i t) := by
  cases i with
  | ret => exact exec_ret_sameButStale h
  | call nnn => exact exec_call_sameButStale nnn h
  | _ => exact exec_sameButStale_of_unused rfl h

/-- Settles O21: the fetch does not see the stack, and `exec_sameButStale` is the execute phase. -/
theorem staleStackEntriesAreNeverRead : Obligations.StaleStackEntriesAreNeverRead := by
  intro s t h
  obtain ⟨K, ht, hK⟩ := h.exists_stack
  have hrun : t.run = s.run := by rw [ht]
  have hfetch : fetchInstr t = fetchInstr s := by rw [ht]; rfl
  cases hr : s.run with
  | faulted record => rw [step_of_faulted hr, step_of_faulted (hrun.trans hr)]; rfl
  | running =>
    cases hf : fetchInstr s with
    | error f => exact .of_fault (step_of_fetch_error hr hf) (step_of_fetch_error (hrun.trans hr) (hfetch.trans hf))
    | ok i =>
      rw [step_of_fetch_ok hr hf, step_of_fetch_ok (hrun.trans hr) (hfetch.trans hf)]
      exact exec_sameButStale i (ht ▸ ⟨rfl, hK⟩)

/-! ### What the host's operations keep (R270) -/

/-- A property that every completing step, every latched fault and every other operation keeps is kept by the host. -/
theorem hostDo_keeps {P : State → Prop} (hstep : ∀ {s t}, P s → step s = .next t → P t)
    (hbegin : ∀ {s}, P s → P s.beginRun) (hlatch : ∀ {s} f, P s → P (latchFault s f))
    (hreset : ∀ {s}, P s → P (machineReset s)) (hload : ∀ {s} bytes, P s → P (s.pokeBytes romBase bytes))
    (htick : ∀ {s}, P s → P (tickTimers s)) (hkey : ∀ {s} k pressed, P s → P (setKeyBit s k pressed))
    (op : HostOp) (s t : State) (hs : P s) (h : (hostDo op s).state? = some t) : P t := by
  obtain ⟨-, rfl⟩ | ⟨bytes, -, -, hl⟩ | ⟨-, hst⟩ | ⟨-, -, rfl⟩ | ⟨code, pressed, -, -, -, rfl⟩ := hostDo_cases h
  · exact hreset hs
  · obtain ⟨-, ⟨-, rfl⟩ | ⟨-, rfl⟩⟩ := loadRom_cases hl
    · exact hbegin (hload bytes hs)
    · exact hs
  · obtain ⟨u, hu, rfl⟩ | ⟨f, -, rfl⟩ := hostStep_cases hst
    · exact hbegin (hstep hs hu)
    · exact hlatch f hs
  · exact htick hs
  · exact hkey _ pressed hs

/-! ### The font table (R41, R64) -/

theorem resetByte_font (font : FontTable) (k : Fin 80) : resetByte font k.val = font[k.val] :=
  dif_pos ⟨Nat.zero_le _, k.isLt⟩

theorem resetByte_of_ge (font : FontTable) {a : Nat} (h : 0x050 ≤ a) : resetByte font a = 0 := by
  refine dif_neg fun hc => ?_
  have := hc.2
  simp only [fontBase] at this
  omega

theorem FontIntact.of_same {s t : State} (hc : t.cfg = s.cfg)
    (hm : s.cfg.fontWrite = .fault → ∀ k : Fin 80, t.readByte k.val = s.readByte k.val) (h : FontIntact s) :
    FontIntact t := by
  intro hw k
  rw [hc] at hw
  rw [hm hw, h hw, hc]

theorem fontIntact_resetWith (c : Config) (d : Nat) : FontIntact (State.resetWith c d) :=
  fun _ k => resetByte_font c.fontTable k

/-- Stores that pass the check of R64 leave the font table alone. -/
theorem OnlyBytes.readByte_font {base len : Nat} {s t : State} (ho : OnlyBytes base len s t)
    (ha : ∀ k < len, StoreAllowed s (base + k)) (hw : s.cfg.fontWrite = .fault) (k : Fin 80) :
    t.readByte k.val = s.readByte k.val := by
  refine ho.1 k.val fun ⟨hlo, hhi⟩ => ?_
  have hstore := (ha (k.val - base) (by omega)).2 hw
  omega

theorem exec_next_readByte_font {i : Instr} {s t : State} (h : exec i s = .next t) (hw : s.cfg.fontWrite = .fault)
    (k : Fin 80) : t.readByte k.val = s.readByte k.val := by
  cases i with
  | storeBcd =>
    obtain ⟨ha, ho, _⟩ := exec_storeBcd_next h
    exact ho.readByte_font ha hw k
  | storeRegs =>
    obtain ⟨ha, ho, _⟩ := exec_storeRegs_next h
    exact ho.readByte_font (fun j hj => ha j (by omega)) hw k
  | _ => exact exec_next_sameMemory h rfl k.val

theorem step_keeps_fontIntact {s t : State} (hs : FontIntact s) (h : step s = .next t) : FontIntact t := by
  obtain ⟨i, -, -, he⟩ := step_next h
  exact .of_same (s := advance s) (exec_next_cfg he) (exec_next_readByte_font he) hs

/-- An image is loaded above the font table (R69). -/
theorem loadRom_keeps_fontIntact {s : State} (bytes : List Byte) (hs : FontIntact s) :
    FontIntact (s.pokeBytes romBase bytes) := by
  refine .of_same (by rw [State.pokeBytes_eq]) (fun _ k => ?_) hs
  refine State.readByte_pokeBytes_outside s romBase bytes k.val fun hc => ?_
  have := hc.1
  simp only [romBase] at this
  omega

/-- Settles O51. -/
theorem fontTableStaysIntact : Obligations.FontTableStaysIntact :=
  ⟨fun _ _ => step_keeps_fontIntact,
    hostDo_keeps step_keeps_fontIntact id (fun _ => id) (fun _ => fontIntact_resetWith _ _) loadRom_keeps_fontIntact id
      (fun _ _ => id)⟩

/-! ### PC and the stack entries in range (R28) -/

theorem PcInRange.of_same {s t : State} (hpc : t.pc = s.pc) (hst : t.stack = s.stack) (h : PcInRange s) :
    PcInRange t := by
  rw [PcInRange, hpc, hst]; exact h

theorem pcInRange_resetWith (c : Config) (d : Nat) : PcInRange (State.resetWith c d) :=
  ⟨(by decide : (0x0200 : Word).toNat ≤ 0x10FE), fun k => by simp [State.resetWith]⟩

theorem toNat_ite_le {c : Prop} [Decidable c] {p q : Word} {n : Nat} (hp : p.toNat ≤ n) (hq : q.toNat ≤ n) :
    (if c then p else q).toNat ≤ n := by
  split
  · exact hp
  · exact hq

/-- PC after an instruction fetched inside the memory, from a stack with its entries in range. -/
theorem pcAfter_le (i : Instr) {s : State} {a : Word} (ha : a.toNat < 0xFFF)
    (hst : ∀ k : Fin 16, (s.stack[k.val]).toNat ≤ 0x1000) : (pcAfter i s a).toNat ≤ 0x10FE := by
  have h2 : (a + 2).toNat ≤ 0x10FE := by bv_omega
  have h4 : (a + 4).toNat ≤ 0x10FE := by bv_omega
  cases i with
  | jp nnn | call nnn => simp only [pcAfter, BitVec.toNat_setWidth]; omega
  | ret => exact Nat.le_trans (hst ⟨s.sp.val - 1, by omega⟩) (by decide)
  | jpV0 nnn => simp only [pcAfter, BitVec.toNat_ofNat]; omega
  | seImm | seReg | skp => exact toNat_ite_le h4 h2
  | sneImm | sneReg | sknp => exact toNat_ite_le h2 h4
  | waitKey => exact toNat_ite_le (by omega) h2
  | _ => exact h2

/-- Only a call writes a stack entry, and it writes its return address (R29, R31). -/
theorem exec_next_stack_le {i : Instr} {s t : State} (h : exec i s = .next t) (hpc : s.pc.toNat ≤ 0x1000)
    (hst : ∀ k : Fin 16, (s.stack[k.val]).toNat ≤ 0x1000) (k : Fin 16) : (t.stack[k.val]).toNat ≤ 0x1000 := by
  cases i with
  | ret => obtain ⟨_, rfl⟩ := exec_ret_next h; exact hst k
  | call =>
    obtain ⟨_, rfl⟩ := exec_call_next h
    simp only [Vector.getElem_set]
    split
    · exact hpc
    · exact hst k
  | _ => rw [(exec_next_stack h rfl).1]; exact hst k

theorem step_keeps_pcInRange {s t : State} (hs : PcInRange s) (h : step s = .next t) : PcInRange t := by
  obtain ⟨i, -, hf, he⟩ := step_next h
  obtain ⟨-, hst⟩ := hs
  have ha : s.pc.toNat < 0xFFF := fetchInstr_pc_lt hf
  have hpc : (advance s).pc.toNat ≤ 0x1000 := by simp only [advance_eq, State.setPc_pc]; bv_omega
  refine ⟨?_, exec_next_stack_le he hpc hst⟩
  rw [exec_next_pc (s := advance s) rfl he]
  exact pcAfter_le i ha hst

/-- Settles O52. -/
theorem programCounterStaysInRange : Obligations.ProgramCounterStaysInRange :=
  ⟨fun _ _ => step_keeps_pcInRange,
    hostDo_keeps step_keeps_pcInRange id (fun _ => id) (fun _ => pcInRange_resetWith _ _)
      (fun bytes => .of_same (by rw [State.pokeBytes_eq]) (by rw [State.pokeBytes_eq])) id (fun _ _ => id)⟩

/-! ### Calls one after the other (R31) -/

theorem exec_call_raises_sp (nnn : Index) {s : State} (hs : s.sp.val < 16) :
    ∃ t, exec (.call nnn) s = .next t ∧ t.sp.val = s.sp.val + 1 := ⟨_, exec_call_of_room nnn hs, rfl⟩

theorem callAll_of_room (targets : List Index) {s : State} (h : s.sp.val + targets.length ≤ 16) :
    ∃ t, callAll targets s = .next t ∧ t.sp.val = s.sp.val + targets.length := by
  induction targets generalizing s with
  | nil => exact ⟨s, rfl, rfl⟩
  | cons nnn rest ih =>
    rw [List.length_cons] at h ⊢
    obtain ⟨u, hu, husp⟩ := exec_call_raises_sp nnn (show s.sp.val < 16 by omega)
    obtain ⟨t, ht, htsp⟩ := ih (s := u) (by omega)
    exact ⟨t, by rw [callAll, hu]; exact ht, by omega⟩

theorem callAll_of_overflow (targets : List Index) {s : State} (h : 16 < s.sp.val + targets.length) :
    ∃ pc, callAll targets s = .fault (.boundsError .stackOverflow pc) := by
  induction targets generalizing s with
  | nil => rw [List.length_nil] at h; omega
  | cons nnn rest ih =>
    rw [List.length_cons] at h
    by_cases hs : s.sp.val < 16
    · obtain ⟨u, hu, husp⟩ := exec_call_raises_sp nnn hs
      rw [callAll, hu]
      exact ih (s := u) (by omega)
    · rw [callAll, exec_call_of_full nnn (show s.sp.val = 16 by omega)]
      exact ⟨_, rfl⟩

/-- Settles O20, each half by induction on the list of targets. -/
theorem callsSucceedUntilTheStackIsFull : Obligations.CallsSucceedUntilTheStackIsFull := fun targets _ =>
  ⟨callAll_of_room targets, callAll_of_overflow targets⟩

/-! ### Ticks (R34, R35) -/

theorem countDown_toNat (b : Byte) : (countDown b).toNat = b.toNat - 1 := by
  unfold countDown
  split
  · subst b; rfl
  · bv_omega

theorem hostRun_replicate_tickTimers (n : Nat) {s : State} (hr : s.run = .running) :
    hostRun (List.replicate n .tickTimers) s = some (tickTimers^[n] s) := by
  induction n generalizing s with
  | zero => rfl
  | succ n ih =>
    have hdo : hostDo .tickTimers s = .done (tickTimers s) := by simp only [hostDo, hr]
    simp only [List.replicate_succ, hostRun, hdo, HostReply.state?]
    exact ih hr

/-- `n` ticks change the two timers only, and lower each by `n` down to zero. -/
theorem iterate_tickTimers (n : Nat) (s : State) :
    (tickTimers^[n] s).dt.toNat = s.dt.toNat - n ∧ (tickTimers^[n] s).st.toNat = s.st.toNat - n ∧
      tickTimers^[n] s = { s with dt := (tickTimers^[n] s).dt, st := (tickTimers^[n] s).st } := by
  induction n with
  | zero => exact ⟨rfl, rfl, rfl⟩
  | succ n ih =>
    obtain ⟨hdt, hst, he⟩ := ih
    rw [Function.iterate_succ_apply']
    refine ⟨?_, ?_, ?_⟩
    · simp only [tickTimers, countDown_toNat, hdt, Nat.sub_sub]
    · simp only [tickTimers, countDown_toNat, hst, Nat.sub_sub]
    · rw [he]; rfl

theorem soundActive_iff (s : State) : soundActive s = true ↔ 0 < s.st.toNat := by
  rw [soundActive, decide_eq_true_iff, Nat.pos_iff_ne_zero, ne_eq, ← BitVec.toNat_inj]; rfl

/-- Settles O45. -/
theorem ticksCountDownToZero : Obligations.TicksCountDownToZero := by
  intro n s hr
  obtain ⟨hdt, hst, he⟩ := iterate_tickTimers n s
  refine ⟨_, hostRun_replicate_tickTimers n hr, hdt, hst, ?_, State.readByte_congr (by rw [he]) (by rw [he]), he⟩
  rw [soundActive_iff, hst]
  omega

/-! ### Keys (R37) -/

theorem keyDown_setKeyBit (s : State) (k j : Key) (pressed : Bool) :
    KeyDown (setKeyBit s k pressed) j ↔ if j = k then pressed = true else KeyDown s j := by
  have hbit : (1#16 <<< k.val).getLsbD j.val = decide (k.val = j.val) :=
    (BitVec.getLsbD_twoPow k.val j.val).trans (by simp)
  have hval : k.val = j.val ↔ j = k := by rw [Fin.ext_iff, eq_comm]
  cases pressed
  · simp only [KeyDown, setKeyBit, Bool.false_eq_true, if_false, BitVec.getLsbD_and, BitVec.getLsbD_not, hbit, hval]
    by_cases hjk : j = k <;> simp [hjk]
  · simp only [KeyDown, setKeyBit, if_true, BitVec.getLsbD_or, hbit, hval]
    by_cases hjk : j = k <;> simp [hjk]

theorem keyWellFormed_iff (code : Nat) : keyWellFormed code = true ↔ code < 16 := decide_eq_true_iff

theorem hostDo_setKey_of_running {s : State} (hr : s.run = .running) (k : Key) (pressed : Bool) :
    hostDo (.setKey k.val pressed) s = .done (setKeyBit s k pressed) := by
  simp only [hostDo, hr, hostSetKey]
  rw [if_pos ((keyWellFormed_iff _).2 k.isLt), Fin.ofNat_val_eq_self]

theorem hostDo_setKey_of_ge (s : State) {code : Nat} (hc : 15 < code) (pressed : Bool) :
    ∃ why, hostDo (.setKey code pressed) s = .outside why := by
  cases hr : s.run with
  | faulted record => exact ⟨.hostOpAfterFault record, by simp only [hostDo, hr]⟩
  | running =>
    refine ⟨.keyCodeOutOfRange code, ?_⟩
    simp only [hostDo, hr, hostSetKey]
    rw [if_neg fun h => absurd ((keyWellFormed_iff code).1 h) (by omega)]

/-- Settles O48. -/
theorem setKeyChangesOneKey : Obligations.SetKeyChangesOneKey :=
  ⟨fun s k pressed hr =>
      ⟨_, hostDo_setKey_of_running hr k pressed, fun j => keyDown_setKeyBit s k j pressed, fun _ => rfl, rfl⟩,
    fun s _ pressed hc => hostDo_setKey_of_ge s hc pressed⟩

/-! ### Reset (R45, R290) -/

theorem pixelAt_resetWith (c : Config) (d : Nat) (x : Fin 64) (y : Fin 32) :
    pixelAt (State.resetWith c d) x y = false := pixel_blank x y

/-- Settles O46. -/
theorem resetSetsEveryElement : Obligations.ResetSetsEveryElement := fun s =>
  ⟨machineReset s, by simp only [hostDo], State.getV_resetWith s.cfg s.draws, rfl, rfl,
    fun k => by simp [State.resetWith], rfl, rfl, rfl, pixelAt_resetWith s.cfg s.draws, rfl,
    resetByte_font s.cfg.fontTable, fun _ => resetByte_of_ge s.cfg.fontTable, rfl, rfl, rfl⟩

/-- Settles O53. -/
theorem resetMeetsTheInvariants : Obligations.ResetMeetsTheInvariants := fun c d =>
  ⟨Memory.wf_nil c.fontTable, fontIntact_resetWith c d, pcInRange_resetWith c d, rfl⟩

end Sys2Proof.Machine
end

section
/-! SUPPORT. Memory (20_memory.md): the canonical form through every step and every operation of the host (R69, R70),
what a fetch reads after a store over the word at PC (R65, R73), and the images `load_rom` accepts (R69, R254). -/

namespace Sys2Proof.Machine

/-! ### The canonical form is kept (R70) -/

/-- The canonical form depends on the parameters and the memory alone. -/
theorem MemoryCanonical.of_same {s t : State} (hc : t.cfg = s.cfg) (hm : t.mem = s.mem) (h : MemoryCanonical s) :
    MemoryCanonical t := by
  rw [MemoryCanonical, hc, hm]; exact h

theorem memoryCanonical_resetWith (c : Config) (d : Nat) : MemoryCanonical (State.resetWith c d) :=
  Memory.wf_nil c.fontTable

theorem exec_next_mem {i : Instr} {s t : State} (h : exec i s = .next t) (hi : storesToMemory i = false) :
    t.mem = s.mem := by
  rw [exec_next_frame h]; simp [keepUnwritten, hi]

/-- The stores that pass their checks keep the form; no other instruction writes memory (R61). -/
theorem exec_keeps_memoryCanonical {i : Instr} {s t : State} (hs : MemoryCanonical s) (h : exec i s = .next t) :
    MemoryCanonical t := by
  cases i with
  | storeBcd => obtain ⟨-, -, hkeep⟩ := exec_storeBcd_next h; exact hkeep hs
  | storeRegs => obtain ⟨-, -, hkeep⟩ := exec_storeRegs_next h; exact hkeep hs
  | _ => exact .of_same (exec_next_cfg h) (exec_next_mem h rfl) hs

theorem step_keeps_memoryCanonical {s t : State} (hs : MemoryCanonical s) (h : step s = .next t) :
    MemoryCanonical t := by
  obtain ⟨i, -, -, he⟩ := step_next h
  exact exec_keeps_memoryCanonical (s := advance s) hs he

/-! ### The image `load_rom` accepts (R69) -/

theorem romWellFormed_iff (bytes : List Byte) :
    romWellFormed bytes = true ↔ 0 < bytes.length ∧ bytes.length ≤ 3584 := by
  rw [romWellFormed, Bool.and_eq_true, romNotEmpty, romFits, decide_eq_true_iff, decide_eq_true_iff]; rfl

/-- An accepted image ends inside the memory, so poking it keeps the form and it reads back. -/
theorem pokeRom_spec {s : State} {bytes : List Byte} (hs : MemoryCanonical s) (hlen : bytes.length ≤ 3584) :
    MemoryCanonical (s.pokeBytes romBase bytes) ∧
      ∀ (k : Nat) (h : k < bytes.length), (s.pokeBytes romBase bytes).readByte (romBase + k) = bytes[k] :=
  State.pokeBytes_spec s romBase bytes hs (by simp only [romBase]; omega)

/-- `hostDo_keeps` asks for every image; the form is kept because `load_rom` pokes only one that fits. -/
theorem hostDo_keeps_memoryCanonical (op : HostOp) (s t : State) (hs : MemoryCanonical s)
    (h : (hostDo op s).state? = some t) : MemoryCanonical t := by
  obtain ⟨-, rfl⟩ | ⟨bytes, -, -, hl⟩ | ⟨-, hst⟩ | ⟨-, -, rfl⟩ | ⟨code, pressed, -, -, -, rfl⟩ := hostDo_cases h
  · exact memoryCanonical_resetWith s.cfg s.draws
  · obtain ⟨-, ⟨hwf, rfl⟩ | ⟨-, rfl⟩⟩ := loadRom_cases hl
    · exact (pokeRom_spec hs ((romWellFormed_iff bytes).1 hwf).2).1
    · exact hs
  · obtain ⟨u, hu, rfl⟩ | ⟨f, -, rfl⟩ := hostStep_cases hst
    · exact .of_same (s := u) rfl rfl (step_keeps_memoryCanonical hs hu)
    · exact hs
  · exact hs
  · exact hs

/-- Settles O50. -/
theorem canonicalMemoryIsKept : Obligations.CanonicalMemoryIsKept :=
  ⟨fun _ _ => step_keeps_memoryCanonical, hostDo_keeps_memoryCanonical⟩

/-! ### A store over the word at PC (R65, R73) -/

/-- From a canonical memory the block that `Fx55` stores reads back (R194). -/
theorem exec_storeRegs_readByte {x : Reg} {s t : State} (hm : MemoryCanonical s) (h : exec (.storeRegs x) s = .next t)
    (j : Reg) (hj : j ≤ x) : t.readByte (dataBase s + j.val) = s.getV j := by
  obtain ⟨ha, -, -⟩ := exec_storeRegs_next h
  obtain ⟨u, hu, -, hread⟩ := memWrites_ok s (instrPc s) (dataBase s) (regBlock s x) fun k hk =>
    ha k (by rw [regBlock_length] at hk; omega)
  simp only [exec, execStoreRegs, hu] at h
  cases h
  have hlen : j.val < (regBlock s x).length := by rw [regBlock_length]; exact Nat.lt_succ_of_le hj
  rw [(hread hm).2 j.val hlen, regBlock_getElem]

/-- A fetch inside the memory reads two bytes, the one at PC as the high byte (R65, R121). -/
theorem fetchWord_ok {s : State} (h : s.pc.toNat + 1 ≤ 0xFFF) :
    fetchWord s = .ok (wordOfBytes (s.readByte s.pc.toNat) (s.readByte (s.pc.toNat + 1))) := by
  simp only [fetchWord, memRead_ok s s.pc s.pc.toNat (by omega), memRead_ok s s.pc (s.pc.toNat + 1) h]

/-- Settles O36: the store that completes shows that both addresses are inside the memory, and leaves PC alone. -/
theorem storedWordIsFetchedNext : Obligations.StoredWordIsFetchedNext := by
  intro x s t hm hx hbase h
  obtain ⟨ha, ⟨-, heq⟩, -⟩ := exec_storeRegs_next h
  have hpc : t.pc.toNat = dataBase s := by rw [heq, hbase]
  have hhi : t.readByte (dataBase s) = s.getV 0 := exec_storeRegs_readByte hm h 0 (Nat.zero_le _)
  have hlo : t.readByte (dataBase s + 1) = s.getV 1 := exec_storeRegs_readByte hm h 1 hx
  have hroom : t.pc.toNat + 1 ≤ 0xFFF := hpc ▸ (ha 1 hx).1
  rw [fetchWord_ok hroom, hpc, hhi, hlo]
  rfl

/-! ### `load_rom` (R69, R254, R292) -/

theorem hostDo_loadRom_of_running {s : State} (hr : s.run = .running) (bytes : List Byte) :
    hostDo (.loadRom bytes) s = loadRom s bytes := by simp only [hostDo, hr]

theorem loadRom_accepts {s : State} {bytes : List Byte} (hb : s.boot = .awaitingRom)
    (hwf : romWellFormed bytes = true) : loadRom s bytes = .done (s.pokeBytes romBase bytes).beginRun := by
  simp only [loadRom, hb, hwf, if_true]

theorem loadRom_rejects {s : State} {bytes : List Byte} (hb : s.boot = .awaitingRom)
    (hwf : ¬ romWellFormed bytes = true) : loadRom s bytes = .failed s (.romLoadError bytes.length) := by
  simp only [loadRom, hb, if_neg hwf]

theorem loadRom_out_of_turn {s : State} (hb : s.boot = .underway) (bytes : List Byte) :
    loadRom s bytes = .outside .loadOutOfTurn := by simp only [loadRom, hb]

/-- Settles O47. -/
theorem loadRomCopiesTheImageOrRejectsIt : Obligations.LoadRomCopiesTheImageOrRejectsIt := by
  refine ⟨fun s bytes hr hb hpos hlen => ?_, fun s bytes hr hb hbad => ?_, fun s bytes hr hb => ?_⟩
  · refine ⟨(s.pokeBytes romBase bytes).beginRun, ?_, State.readByte_pokeBytes_outside s romBase bytes, ?_,
      fun hm => (pokeRom_spec hm hlen).2⟩
    · rw [hostDo_loadRom_of_running hr, loadRom_accepts hb ((romWellFormed_iff bytes).2 ⟨hpos, hlen⟩)]
    · rw [State.pokeBytes_eq]; rfl
  · rw [hostDo_loadRom_of_running hr, loadRom_rejects hb]
    rw [romWellFormed_iff]
    omega
  · rw [hostDo_loadRom_of_running hr, loadRom_out_of_turn hb]

end Sys2Proof.Machine
end

section
/-! SUPPORT. The encoding (30_encoding.md): the decoder reads back every encoded instruction (R90 to R94), a word that
decodes is the encoding of what it decodes to (R98), and the rows of the opcode table are told apart by their fixed
bits (R92, R96, R97). -/

namespace Sys2Proof

/-! ### The decoder reads an encoded instruction back (R94, R96) -/

/-- The keys that the decoder looks at are read off the formats by the field laws of Laws/Decode.lean. -/
theorem decodeWord_encode (i : Instr) : decodeWord (encode i) = .ok i := by
  cases i with
  | cls | ret => rfl
  | jp nnn | call nnn | ldIndex nnn | jpV0 nnn => simp [encode, decodeWord]
  | seImm x kk | sneImm x kk | ldImm x kk | addImm x kk | rnd x kk => simp [encode, decodeWord]
  | seReg x y | sneReg x y => simp [encode, decodeWord]
  | drw x y n => simp [encode, decodeWord]
  | ldReg x y | orReg x y | andReg x y | xorReg x y | addReg x y | subReg x y | shr x y | subn x y | shl x y =>
    simp [encode, decodeWord, decodeFamily8]
  | skp x | sknp x => simp [encode, decodeWord, decodeFamilyE]
  | ldDelay x | waitKey x | setDelay x | setSound x | addIndex x | ldFont x | storeBcd x | storeRegs x | loadRegs x =>
    simp [encode, decodeWord, decodeFamilyF]

/-- The two bytes of a word are decoded as that word, whatever follows them (R65, R90). -/
theorem decodeBytes_wordBytes {op : Word} {i : Instr} (h : decodeWord op = .ok i) (rest : List Byte) :
    decodeBytes (wordBytes op ++ rest) = .ok (i, rest) := by
  simp only [wordBytes, List.cons_append, List.nil_append, decodeBytes, wordOfBytes_bytes, h]

/-- Settles O1. -/
theorem encodedInstructionDecodesToItself : Obligations.EncodedInstructionDecodesToItself :=
  fun i => decodeBytes_wordBytes (decodeWord_encode i)

/-! ### What the decoder answers (R94, R97, R98)

In each family the keys that the decoder has tested and the operands that it has read are all the bits of the word. -/

/-- An answer that is right for the word `op`: an instruction whose encoding `op` is, or that `op` is unassigned. -/
def AnswersWord (op : Word) : Except DecodeRefusal Instr → Prop
  | .ok i => encode i = op
  | .error e => e = .unassigned op

section
variable {op : Word} {h : Nibble}

theorem formatNnn_of_fieldN1 (h1 : fieldN1 op = h) : formatNnn h (fieldNnn op) = op := h1 ▸ formatNnn_fields op

theorem formatXkk_of_fieldN1 (h1 : fieldN1 op = h) : formatXkk h (fieldX op) (fieldKk op) = op :=
  h1 ▸ formatXkk_fields op

theorem formatXkk_of_keys {kk : Byte} (h1 : fieldN1 op = h) (hkk : fieldKk op = kk) :
    formatXkk h (fieldX op) kk = op := hkk ▸ formatXkk_of_fieldN1 h1

theorem formatXyn_of_fieldN1 (h1 : fieldN1 op = h) : formatXyn h (fieldX op) (fieldY op) (fieldN op) = op :=
  h1 ▸ formatXyn_fields op

theorem formatXyn_of_keys {n : Nibble} (h1 : fieldN1 op = h) (hn : fieldN op = n) :
    formatXyn h (fieldX op) (fieldY op) n = op := hn ▸ formatXyn_of_fieldN1 h1

theorem decodeFamily0_answersWord (op : Word) : AnswersWord op (decodeFamily0 op) := by
  unfold decodeFamily0
  split_ifs with hcls hret
  · exact hcls.symm
  · exact hret.symm
  · rfl

theorem decodeFamily8_answersWord (h1 : fieldN1 op = 0x8#4) : AnswersWord op (decodeFamily8 op) := by
  unfold decodeFamily8
  split
  case h_10 => rfl
  all_goals next hn => exact formatXyn_of_keys h1 hn

theorem decodeFamilyE_answersWord (h1 : fieldN1 op = 0xE#4) : AnswersWord op (decodeFamilyE op) := by
  unfold decodeFamilyE
  split
  case h_3 => rfl
  all_goals next hkk => exact formatXkk_of_keys h1 hkk

theorem decodeFamilyF_answersWord (h1 : fieldN1 op = 0xF#4) : AnswersWord op (decodeFamilyF op) := by
  unfold decodeFamilyF
  split
  case h_10 => rfl
  all_goals next hkk => exact formatXkk_of_keys h1 hkk

/-- Case `h_k` is family `k - 1`; the families are grouped by the format of their words. -/
theorem decodeWord_answersWord (op : Word) : AnswersWord op (decodeWord op) := by
  unfold decodeWord
  split
  case h_1 => exact decodeFamily0_answersWord op
  case h_2 h1 | h_3 h1 | h_11 h1 | h_12 h1 => exact formatNnn_of_fieldN1 h1
  case h_4 h1 | h_5 h1 | h_7 h1 | h_8 h1 | h_13 h1 => exact formatXkk_of_fieldN1 h1
  case h_6 h1 | h_10 h1 =>
    split_ifs with hn
    · exact formatXyn_of_keys h1 hn
    · rfl
  case h_9 h1 => exact decodeFamily8_answersWord h1
  case h_14 h1 => exact formatXyn_of_fieldN1 h1
  case h_15 h1 => exact decodeFamilyE_answersWord h1
  case h_16 h1 => exact decodeFamilyF_answersWord h1
  case h_17 => rfl

theorem encode_of_decodeWord_ok {i : Instr} (hd : decodeWord op = .ok i) : encode i = op := by
  have ha := decodeWord_answersWord op
  rwa [hd] at ha

theorem decodeWord_error_unassigned {e : DecodeRefusal} (hd : decodeWord op = .error e) : e = .unassigned op := by
  have ha := decodeWord_answersWord op
  rwa [hd] at ha

end

/-- Settles O2: the decoder's answer is right for the word. -/
theorem decodedWordIsItsEncoding : Obligations.DecodedWordIsItsEncoding := fun _ _ => encode_of_decodeWord_ok

/-! ### The rows of the opcode table (R92, R96, R97) -/

theorem row_matchesWord_iff {r : OpcodeRow} {op : Word} : r.matchesWord op = true ↔ op &&& r.mask = r.matchBits :=
  decide_eq_true_iff

/-- Two rows that match one word agree on the bits that both fix. -/
theorem rows_agree_of_matchesWord {r q : OpcodeRow} {op : Word} (hr : r.matchesWord op = true)
    (hq : q.matchesWord op = true) : r.matchBits &&& q.mask = q.matchBits &&& r.mask := by
  rw [← row_matchesWord_iff.1 hr, ← row_matchesWord_iff.1 hq, BitVec.and_assoc, BitVec.and_assoc,
    BitVec.and_comm r.mask]

/-- Different rows of the table differ on a bit that both fix. -/
theorem opcodeTable_rows_eq_of_agree : ∀ r ∈ opcodeTable, ∀ q ∈ opcodeTable,
    r.matchBits &&& q.mask = q.matchBits &&& r.mask → r = q := by decide +kernel

theorem row_mem_opcodeTable (i : Instr) : i.row ∈ opcodeTable := by
  cases i <;> simp [opcodeTable, instrSamples, Instr.row]

open Laws in
/-- The encoding of an instruction matches the instruction's own row, by the law of that instruction. -/
theorem row_matchesWord_encode : ∀ i : Instr, i.row.matchesWord (encode i) = true
  | .cls => EncodeRow.cls
  | .ret => EncodeRow.ret
  | .jp nnn => EncodeRow.jp nnn
  | .call nnn => EncodeRow.call nnn
  | .seImm x kk => EncodeRow.seImm x kk
  | .sneImm x kk => EncodeRow.sneImm x kk
  | .seReg x y => EncodeRow.seReg x y
  | .ldImm x kk => EncodeRow.ldImm x kk
  | .addImm x kk => EncodeRow.addImm x kk
  | .ldReg x y => EncodeRow.ldReg x y
  | .orReg x y => EncodeRow.orReg x y
  | .andReg x y => EncodeRow.andReg x y
  | .xorReg x y => EncodeRow.xorReg x y
  | .addReg x y => EncodeRow.addReg x y
  | .subReg x y => EncodeRow.subReg x y
  | .shr x y => EncodeRow.shr x y
  | .subn x y => EncodeRow.subn x y
  | .shl x y => EncodeRow.shl x y
  | .sneReg x y => EncodeRow.sneReg x y
  | .ldIndex nnn => EncodeRow.ldIndex nnn
  | .jpV0 nnn => EncodeRow.jpV0 nnn
  | .rnd x kk => EncodeRow.rnd x kk
  | .drw x y n => EncodeRow.drw x y n
  | .skp x => EncodeRow.skp x
  | .sknp x => EncodeRow.sknp x
  | .ldDelay x => EncodeRow.ldDelay x
  | .waitKey x => EncodeRow.waitKey x
  | .setDelay x => EncodeRow.setDelay x
  | .setSound x => EncodeRow.setSound x
  | .addIndex x => EncodeRow.addIndex x
  | .ldFont x => EncodeRow.ldFont x
  | .storeBcd x => EncodeRow.storeBcd x
  | .storeRegs x => EncodeRow.storeRegs x
  | .loadRegs x => EncodeRow.loadRegs x

section
variable {op : Word}

theorem row_matchesWord_of_decodeWord_ok {i : Instr} (hd : decodeWord op = .ok i) : i.row.matchesWord op = true :=
  encode_of_decodeWord_ok hd ▸ row_matchesWord_encode i

/-- A word that decodes matches one row of the table, its instruction's own. -/
theorem matchesWord_iff_eq_row {i : Instr} (hd : decodeWord op = .ok i) {r : OpcodeRow} (hr : r ∈ opcodeTable) :
    r.matchesWord op = true ↔ r = i.row := by
  have hown : i.row.matchesWord op = true := row_matchesWord_of_decodeWord_ok hd
  constructor
  · intro hm
    exact opcodeTable_rows_eq_of_agree r hr _ (row_mem_opcodeTable i) (rows_agree_of_matchesWord hm hown)
  · rintro rfl
    exact hown

/-- Words that agree under a mask agree on every field that the mask keeps whole. -/
theorem extractLsb'_eq_of_and_eq {w mask : Word} {start len : Nat}
    (hk : mask.extractLsb' start len = BitVec.allOnes len) (hm : op &&& mask = w &&& mask) :
    op.extractLsb' start len = w.extractLsb' start len := by
  have hf := congrArg (BitVec.extractLsb' start len) hm
  rwa [BitVec.extractLsb'_and, BitVec.extractLsb'_and, hk, BitVec.and_allOnes, BitVec.and_allOnes] at hf

/-- Every row fixes the primary nibble. -/
theorem opcodeTable_mask_fieldN1 : ∀ r ∈ opcodeTable, fieldN1 r.mask = BitVec.allOnes 4 := by decide +kernel

/-- A word that matches the row of an instruction decodes: it has the keys of the instruction's own encoding. -/
theorem decodeWord_ok_of_row_matchesWord {i : Instr} (hi : i.row.matchesWord op = true) :
    ∃ j, decodeWord op = .ok j := by
  have hm : op &&& i.row.mask = encode i &&& i.row.mask :=
    (row_matchesWord_iff.1 hi).trans (row_matchesWord_iff.1 (row_matchesWord_encode i)).symm
  have h1 : fieldN1 op = fieldN1 (encode i) :=
    extractLsb'_eq_of_and_eq (opcodeTable_mask_fieldN1 _ (row_mem_opcodeTable i)) hm
  cases i with
  | cls | ret =>
    have hop : op = _ := (and_mask_FFFF op).symm.trans (hm.trans (and_mask_FFFF _))
    exact ⟨_, hop ▸ decodeWord_encode _⟩
  | jp _ | call _ | ldIndex _ | jpV0 _ | seImm _ _ | sneImm _ _ | ldImm _ _ | addImm _ _ | rnd _ _ | drw _ _ _ =>
    simp [decodeWord, h1, encode]
  | seReg _ _ | sneReg _ _ | ldReg _ _ | orReg _ _ | andReg _ _ | xorReg _ _ | addReg _ _ | subReg _ _ | shr _ _
  | subn _ _ | shl _ _ =>
    have hn : fieldN op = fieldN (encode _) := extractLsb'_eq_of_and_eq (mask := 0xF00F) rfl hm
    simp [decodeWord, decodeFamily8, h1, hn, encode]
  | skp _ | sknp _ | ldDelay _ | waitKey _ | setDelay _ | setSound _ | addIndex _ | ldFont _ | storeBcd _
  | storeRegs _ | loadRegs _ =>
    have hkk : fieldKk op = fieldKk (encode _) := extractLsb'_eq_of_and_eq (mask := 0xF0FF) rfl hm
    simp [decodeWord, decodeFamilyE, decodeFamilyF, h1, hkk, encode]

/-- Every row of the table is the row of an instruction. -/
theorem exists_row_of_mem_opcodeTable {r : OpcodeRow} (hr : r ∈ opcodeTable) : ∃ i : Instr, i.row = r := by
  obtain ⟨i, -, hi⟩ := List.mem_map.1 hr
  exact ⟨i, hi⟩

theorem matchesWord_false_iff_unassigned (op : Word) :
    (∀ r ∈ opcodeTable, r.matchesWord op = false) ↔ decodeWord op = .error (.unassigned op) := by
  constructor
  · intro hno
    cases hd : decodeWord op with
    | ok i =>
      have hown := row_matchesWord_of_decodeWord_ok hd
      rw [hno _ (row_mem_opcodeTable i)] at hown
      cases hown
    | error e => rw [decodeWord_error_unassigned hd]
  · intro hd r hr
    obtain ⟨i, rfl⟩ := exists_row_of_mem_opcodeTable hr
    by_contra hm
    obtain ⟨j, hj⟩ := decodeWord_ok_of_row_matchesWord (Bool.eq_true_of_not_eq_false hm)
    rw [hd] at hj
    cases hj

end

/-- Settles O3. -/
theorem assignedWordsAreTheTableRows : Obligations.AssignedWordsAreTheTableRows :=
  ⟨fun _ _ hd _ hr => matchesWord_iff_eq_row hd hr, matchesWord_false_iff_unassigned⟩

/-- Settles O4: each assigned word is the encoding of its instruction, and 5121 matches no row of the table. -/
theorem sampleWordsDecode : Obligations.SampleWordsDecode :=
  ⟨decodeWord_encode .cls, decodeWord_encode (.jp 0x234), decodeWord_encode (.seImm 0xA 0x05),
    decodeWord_encode (.subReg 1 2), decodeWord_encode (.ldIndex 0x2F0), decodeWord_encode (.drw 0 1 5),
    decodeWord_encode (.skp 1), decodeWord_encode (.storeRegs 2),
    (matchesWord_false_iff_unassigned 0x5121).1 (by decide +kernel)⟩

end Sys2Proof
end

section
/-! SUPPORT. The cycle (40_cycle.md): what a fetch answers in each range of PC (R121), the fetch of a word that stands at
PC (R65, R120), which steps are refused (R125), and the independence of the random source (R127). -/

namespace Sys2Proof.Machine

/-! ### The execute phase refuses nothing (R124, R125) -/

theorem complete_ne_refused (e : Except Fault State) (r : Refusal) : complete e ≠ .refused r := by
  cases e <;> nofun

/-- Every meaning ends in a next state or, where it works on the stack or on memory, in a BoundsError. -/
theorem exec_ne_refused (i : Instr) (s : State) (r : Refusal) : exec i s ≠ .refused r := by
  cases i with
  | ret =>
    simp only [exec, execRet]
    cases pop s (instrPc s) <;> nofun
  | call nnn =>
    simp only [exec, execCall]
    cases push s (instrPc s) s.pc <;> nofun
  | drw x y n =>
    simp only [exec, execDrw]
    cases memReads s (instrPc s) (dataBase s) n.toNat <;> nofun
  | loadRegs x =>
    simp only [exec, execLoadRegs]
    cases memReads s (instrPc s) (dataBase s) (x.val + 1) <;> nofun
  | storeBcd x | storeRegs x => exact complete_ne_refused _ r
  | addIndex x =>
    simp only [exec, execAddIndex]
    cases s.cfg.indexFlag <;> nofun
  | waitKey x =>
    simp only [exec, execWaitKey]
    cases lowestKey s <;> nofun
  | _ => nofun

/-- Settles O8: a running machine answers the fetch's fault or what `exec` answers, and `exec` refuses nothing. -/
theorem onlyAFaultedMachineIsRefused : Obligations.OnlyAFaultedMachineIsRefused := by
  intro s r
  constructor
  · intro h
    cases hr : s.run with
    | faulted record =>
      rw [step_of_faulted hr] at h
      cases h
      exact ⟨record, rfl, rfl⟩
    | running =>
      cases hf : fetchInstr s with
      | error f => rw [step_of_fetch_error hr hf] at h; cases h
      | ok i => exact absurd (step_of_fetch_ok hr hf ▸ h) (exec_ne_refused i (advance s) r)
  · rintro ⟨record, hr, rfl⟩
    exact step_of_faulted hr

/-! ### The random source (R127) -/

/-- Settles O11: `exec_mapUnread` with the stack and ST left alone. -/
theorem onlyRandomReadsTheDraw : Obligations.OnlyRandomReadsTheDraw := fun i s d hi =>
  exec_mapUnread id id (fun _ => d) i s (fun _ => rfl) (fun _ => rfl) (fun ⟨x, kk, hx⟩ => absurd hx (hi x kk))

/-! ### The fetch (R65, R121, R123) -/

/-- The first of the two reads faults (R121, R251). -/
theorem fetchWord_error_first {s : State} (h : 0xFFF < s.pc.toNat) :
    fetchWord s = .error (.boundsError (.memRead s.pc.toNat) s.pc) := by
  simp only [fetchWord, memRead_error s s.pc _ h]

/-- The second of the two reads faults (R121, R251). -/
theorem fetchWord_error_second {s : State} (h : s.pc.toNat = 0xFFF) :
    fetchWord s = .error (.boundsError (.memRead 0x1000) s.pc) := by
  have hsecond : memRead s s.pc (s.pc.toNat + 1) = .error (.boundsError (.memRead 0x1000) s.pc) := by
    rw [h]; exact memRead_error s s.pc 0x1000 (by omega)
  simp only [fetchWord, memRead_ok s s.pc s.pc.toNat (by omega), hsecond]

theorem fetchWord_of_wordAtPc {s : State} {op : Word} (h : WordAtPc s op) : fetchWord s = .ok op := by
  obtain ⟨hroom, hhi, hlo⟩ := h
  rw [fetchWord_ok hroom, hhi, hlo, wordOfBytes_bytes]

theorem fetchInstr_of_fetchWord_error {s : State} {f : Fault} (h : fetchWord s = .error f) :
    fetchInstr s = .error f := by simp only [fetchInstr, h]

theorem fetchInstr_of_decodeWord_ok {s : State} {op : Word} {i : Instr} (h : fetchWord s = .ok op)
    (hd : decodeWord op = .ok i) : fetchInstr s = .ok i := by simp only [fetchInstr, h, hd]

/-- Settles O5. -/
theorem stepRunsTheDecodedInstruction : Obligations.StepRunsTheDecodedInstruction := fun _ _ _ hr hw hd =>
  step_of_fetch_ok hr (fetchInstr_of_decodeWord_ok (fetchWord_of_wordAtPc hw) hd)

/-- Settles O6: one lemma about the fetch for each range of PC. -/
theorem fetchChecksBounds : Obligations.FetchChecksBounds :=
  ⟨fun _ hr h => step_of_fetch_error hr (fetchInstr_of_fetchWord_error (fetchWord_error_first h)),
    fun _ hr h => step_of_fetch_error hr (fetchInstr_of_fetchWord_error (fetchWord_error_second h)),
    fun _ h => fetchWord_ok h⟩

end Sys2Proof.Machine
end

section
/-! SUPPORT. The words of a format whose fixed bits are those of a row (30_encoding.md R92, R96): they and no others
decode to the row's instruction, with the operands of the word's fields. One lemma per format. -/

namespace Sys2Proof

open Machine (EncodedAs)

theorem decodeWord_eq_ok_iff {op : Word} {i : Instr} : decodeWord op = .ok i ↔ encode i = op :=
  ⟨encode_of_decodeWord_ok, fun h => h ▸ decodeWord_encode i⟩

section
variable {op : Word} {h : Nibble}

/-! ### The fixed bits of a word, read off its fields -/

theorem and_mask_F000_eq_iff : op &&& 0xF000 = h ++ 0x000#12 ↔ fieldN1 op = h := by
  rw [and_mask_F000]
  exact BitVec.append_left_inj _

theorem and_mask_F00F_eq_iff {n : Nibble} :
    op &&& 0xF00F = (h ++ 0x00#8) ++ n ↔ fieldN1 op = h ∧ fieldN op = n := by
  rw [and_mask_F00F]
  constructor
  · intro he
    have hn : fieldN op = n := by
      simpa only [BitVec.extractLsb'_append_eq_right] using congrArg (BitVec.extractLsb' 0 4) he
    rw [hn] at he
    exact ⟨(BitVec.append_left_inj _).1 ((BitVec.append_left_inj _).1 he), hn⟩
  · rintro ⟨rfl, rfl⟩
    rfl

/-! ### A word is the one that its format writes with its own operand fields -/

theorem formatNnn_fieldNnn_eq_iff : formatNnn h (fieldNnn op) = op ↔ fieldN1 op = h :=
  ⟨fun he => by rw [← he, fieldN1_formatNnn], formatNnn_of_fieldN1⟩

theorem formatXkk_fieldKk_eq_iff : formatXkk h (fieldX op) (fieldKk op) = op ↔ fieldN1 op = h :=
  ⟨fun he => by rw [← he, fieldN1_formatXkk], formatXkk_of_fieldN1⟩

theorem formatXyn_fieldY_eq_iff {n : Nibble} :
    formatXyn h (fieldX op) (fieldY op) n = op ↔ fieldN1 op = h ∧ fieldN op = n :=
  ⟨fun he => by rw [← he, fieldN1_formatXyn, fieldN_formatXyn]; exact ⟨rfl, rfl⟩,
    fun ⟨h1, hn⟩ => formatXyn_of_keys h1 hn⟩

end

/-! ### The words of each format -/

section
variable {w : Word} (h : Nibble)

theorem encodedAs_fixed (i : Instr) (henc : encode i = w) : EncodedAs w 0xFFFF fun _ => i := fun op => by
  rw [decodeWord_eq_ok_iff, henc, and_mask_FFFF, eq_comm]

theorem encodedAs_nnn {c : Index → Instr} (henc : ∀ nnn, encode (c nnn) = formatNnn h nnn) (hw : h ++ 0x000#12 = w) :
    EncodedAs w 0xF000 fun op => c (fieldNnn op) := fun op => by
  rw [decodeWord_eq_ok_iff, henc, formatNnn_fieldNnn_eq_iff, ← hw, and_mask_F000_eq_iff]

theorem encodedAs_xkk {c : Reg → Byte → Instr} (henc : ∀ x kk, encode (c x kk) = formatXkk h x kk)
    (hw : h ++ 0x000#12 = w) : EncodedAs w 0xF000 fun op => c (fieldX op) (fieldKk op) := fun op => by
  rw [decodeWord_eq_ok_iff, henc, formatXkk_fieldKk_eq_iff, ← hw, and_mask_F000_eq_iff]

theorem encodedAs_xy {c : Reg → Reg → Instr} (n : Nibble) (henc : ∀ x y, encode (c x y) = formatXyn h x y n)
    (hw : (h ++ 0x00#8) ++ n = w) : EncodedAs w 0xF00F fun op => c (fieldX op) (fieldY op) := fun op => by
  rw [decodeWord_eq_ok_iff, henc, formatXyn_fieldY_eq_iff, ← hw, and_mask_F00F_eq_iff]

end

end Sys2Proof
end

section
/-! SUPPORT. Control flow (41_control_flow.md): the stack instructions and how a return undoes a call (R140, R142, R148),
the jumps (R141, R143) and the comparing skips (R144 to R147). -/

namespace Sys2Proof.Machine

/-! ### A return after a call (R148) -/

theorem topEntry_setPc (s : State) (w : Word) : topEntry (s.setPc w) = topEntry s := rfl

/-- The entry that a call pushes is the one that the next pop gives (R31, R32). -/
theorem exec_call_topEntry {nnn : Index} {s t : State} (h : exec (.call nnn) s = .next t) : topEntry t = s.pc := by
  obtain ⟨_, rfl⟩ := exec_call_next h
  exact Vector.getElem_set_self _

/-- A call leaves the entries below SP as they are (R31). -/
theorem exec_call_stack_below {nnn : Index} {s t : State} (h : exec (.call nnn) s = .next t) (k : Fin 16)
    (hk : k.val < s.sp.val) : t.stack[k.val] = s.stack[k.val] := by
  obtain ⟨hroom, rfl⟩ := exec_call_next h
  exact Vector.getElem_set_ne hroom k.isLt (by omega)

/-- Settles O19: the return pops the entry that the call pushed, and takes SP back below it. -/
theorem returnUndoesCall : Obligations.ReturnUndoesCall := by
  intro nnn s t w h
  have htop : topEntry { t with pc := w } = s.pc := (topEntry_setPc t w).trans (exec_call_topEntry h)
  have hbelow := exec_call_stack_below h
  obtain ⟨_, rfl⟩ := exec_call_next h
  refine ⟨_, exec_ret_of_pos (Nat.succ_pos s.sp.val), htop, rfl, ?_, hbelow⟩
  rw [htop]
  rfl

/-! ### The stack instructions (R140, R142) -/

/-- Settles O12. -/
theorem returnPopsProgramCounter : Obligations.ReturnPopsProgramCounter :=
  ⟨encodedAs_fixed .ret rfl,
    fun _ _ ha hs => by rw [exec_ret_of_empty hs, instrPc_of_advanced ha],
    fun _ hs => ⟨_, exec_ret_of_pos hs, rfl, rfl, fun _ => rfl, rfl⟩⟩

theorem jumpTarget_toNat (nnn : Index) : (jumpTarget nnn).toNat = nnn.toNat :=
  BitVec.toNat_setWidth_of_le (by decide)

/-- Settles O14. -/
theorem callPushesReturnAddress : Obligations.CallPushesReturnAddress := by
  refine ⟨encodedAs_nnn 0x2 (fun _ => rfl) (by decide), fun nnn s a ha hs => ?_, fun nnn s hs => ?_⟩
  · rw [exec_call_of_full nnn hs, instrPc_of_advanced ha]
  · refine ⟨_, exec_call_of_room nnn hs, jumpTarget_toNat nnn, rfl, fun k => ?_, fun _ => rfl, rfl⟩
    simp only [Vector.getElem_set, eq_comm]

/-! ### The jumps (R141, R143) -/

/-- Settles O13. -/
theorem jumpSetsProgramCounter : Obligations.JumpSetsProgramCounter :=
  ⟨encodedAs_nnn 0x1 (fun _ => rfl) (by decide), fun nnn s => ⟨_, rfl, jumpTarget_toNat nnn, setPc_onlyPc s _⟩⟩

/-- The largest sum is 0xFFF + 0xFF, which 16 bits hold (R28). -/
theorem offsetTarget_toNat (nnn : Index) (b : Byte) : (offsetTarget nnn b).toNat = nnn.toNat + b.toNat := by
  rw [offsetTarget_eq, BitVec.toNat_ofNat]
  exact Nat.mod_eq_of_lt (by omega)

/-- Settles O15. -/
theorem jumpWithOffsetAddsV0 : Obligations.JumpWithOffsetAddsV0 :=
  ⟨encodedAs_nnn 0xB (fun _ => rfl) (by decide), fun nnn s => ⟨_, rfl, offsetTarget_toNat nnn _, setPc_onlyPc s _⟩⟩

/-! ### The skips on a comparison (R144 to R147) -/

/-- A meaning that is a skip on `p`, in an instruction fetched from `a`, ends at `a + 4` or at `a + 2`. -/
theorem exec_skipIf_spec {i : Instr} {s : State} {a : Word} {p : Prop} [Decidable p] (ha : s.pc = a + 2)
    (h : exec i s = .next (skipIf (decide p) s)) :
    ∃ t, exec i s = .next t ∧ t.pc = (if p then a + 4 else a + 2) ∧ OnlyPc s t :=
  ⟨_, h, by simp only [skipIf_pc_of_advanced ha, decide_eq_true_eq], skipIf_onlyPc _ s⟩

/-- Settles O16. -/
theorem skipsCompareWithImmediate : Obligations.SkipsCompareWithImmediate :=
  ⟨encodedAs_xkk 0x3 (fun _ _ => rfl) (by decide), encodedAs_xkk 0x4 (fun _ _ => rfl) (by decide),
    fun _ _ _ _ ha => ⟨exec_skipIf_spec ha rfl, exec_skipIf_spec ha rfl⟩⟩

/-- Settles O17. -/
theorem skipsCompareRegisters : Obligations.SkipsCompareRegisters :=
  ⟨encodedAs_xy 0x5 0x0 (fun _ _ => rfl) (by decide), encodedAs_xy 0x9 0x0 (fun _ _ => rfl) (by decide),
    fun _ _ _ _ ha => ⟨exec_skipIf_spec ha rfl, exec_skipIf_spec ha rfl⟩⟩

end Sys2Proof.Machine
end

section
/-! SUPPORT. Loads, arithmetic, logic and the random byte (42_load_alu.md): the meanings that write one register (R165 to
R170), those that write a result and then a flag (R171 to R175, R160, R161), and the masked draw (R177). -/

namespace Sys2Proof.Machine

/-! ### The meanings that write one register (R165 to R170) -/

/-- A meaning that writes `b` to `V[x]` completes with `V[x] = b` and keeps everything else. -/
theorem exec_setV_spec {i : Instr} {s : State} {x : Reg} {b : Byte} (h : exec i s = .next (s.setV x b)) :
    ∃ t, exec i s = .next t ∧ t.getV x = b ∧ OnlyRegs (· = x) s t :=
  ⟨_, h, State.getV_setV_self s x b, setV_onlyRegs s x b⟩

/-- Settles O22. -/
theorem immediateFormsWriteOneRegister : Obligations.ImmediateFormsWriteOneRegister := by
  refine ⟨encodedAs_xkk 0x6 (fun _ _ => rfl) (by decide), encodedAs_xkk 0x7 (fun _ _ => rfl) (by decide),
    fun x kk s => ⟨exec_setV_spec rfl, ?_⟩⟩
  obtain ⟨t, hexec, hx, hframe⟩ := exec_setV_spec (i := .addImm x kk) (s := s) rfl
  exact ⟨t, hexec, hx ▸ BitVec.toNat_add .., hframe⟩

/-- Settles O23. -/
theorem copyAndLogicLeaveTheFlag : Obligations.CopyAndLogicLeaveTheFlag :=
  ⟨encodedAs_xy 0x8 0x0 (fun _ _ => rfl) (by decide), encodedAs_xy 0x8 0x1 (fun _ _ => rfl) (by decide),
    encodedAs_xy 0x8 0x2 (fun _ _ => rfl) (by decide), encodedAs_xy 0x8 0x3 (fun _ _ => rfl) (by decide),
    fun _ _ _ => ⟨exec_setV_spec rfl, exec_setV_spec rfl, exec_setV_spec rfl, exec_setV_spec rfl⟩⟩

/-! ### The meanings that write a result and then a flag (R160, R161) -/

/-- A meaning that writes the result `r`, as a number `n`, to `V[x]` and then the flag to VF: for `x = 15` the flag is
what remains. -/
theorem exec_setResultFlag_spec {i : Instr} {s : State} {x : Reg} {r : Byte} {f : Bool} {n : Nat}
    (h : exec i s = .next (setResultFlag s x r f)) (hr : r.toNat = n) :
    ∃ t, exec i s = .next t ∧ (x ≠ 15 → (t.getV x).toNat = n) ∧ t.getV 15 = flagByte f ∧
      OnlyRegs (fun j => j = x ∨ j = 15) s t := by
  refine ⟨_, h, fun hx => ?_, ?_, setResultFlag_onlyRegs s x r f⟩
  · rw [getV_setResultFlag, if_neg hx, if_pos rfl, hr]
  · rw [getV_setResultFlag, if_pos rfl]

theorem flagByte_decide (p : Prop) [Decidable p] : flagByte (decide p) = if p then 1 else 0 := by
  simp only [flagByte, decide_eq_true_eq]

/-- Settles O24. -/
theorem addSetsCarry : Obligations.AddSetsCarry := by
  refine ⟨encodedAs_xy 0x8 0x4 (fun _ _ => rfl) (by decide), fun x y s => ?_⟩
  rw [← flagByte_decide]
  exact exec_setResultFlag_spec rfl (BitVec.toNat_add ..)

theorem toNat_sub_mod (p q : Byte) : (p - q).toNat = (p.toNat + 256 - q.toNat) % 256 := by
  have hq := q.isLt
  rw [BitVec.toNat_sub]
  omega

/-- Settles O25. -/
theorem subtractSetsNotBorrow : Obligations.SubtractSetsNotBorrow := by
  refine ⟨encodedAs_xy 0x8 0x5 (fun _ _ => rfl) (by decide), encodedAs_xy 0x8 0x7 (fun _ _ => rfl) (by decide),
    fun x y s => ?_⟩
  rw [← flagByte_decide, ← flagByte_decide]
  exact ⟨exec_setResultFlag_spec rfl (toNat_sub_mod ..), exec_setResultFlag_spec rfl (toNat_sub_mod ..)⟩

theorem shiftOperand_eq (s : State) (x y : Reg) :
    shiftOperand s x y = if s.cfg.shiftSource = .vx then s.getV x else s.getV y := by
  unfold shiftOperand
  cases s.cfg.shiftSource <;> rfl

theorem flagByte_shiftedOutLow_toNat (b : Byte) : (flagByte (shiftedOutLow b)).toNat = b.toNat % 2 := by
  rw [flagByte_toNat, shiftedOutLow, BitVec.getLsbD, Nat.toNat_testBit, Nat.pow_zero, Nat.div_one]

/-- Bit 7 is all that eight bits leave above 127. -/
theorem flagByte_shiftedOutHigh_toNat (b : Byte) : (flagByte (shiftedOutHigh b)).toNat = b.toNat / 128 := by
  rw [flagByte_toNat, shiftedOutHigh, BitVec.getLsbD, Nat.toNat_testBit]
  omega

theorem toNat_ushiftRight_one (b : Byte) : (b >>> 1).toNat = b.toNat / 2 := by
  rw [BitVec.toNat_ushiftRight, Nat.shiftRight_one]

theorem toNat_shiftLeft_one (b : Byte) : (b <<< 1).toNat = b.toNat * 2 % 256 := by
  rw [BitVec.toNat_shiftLeft, Nat.shiftLeft_eq]

/-- Settles O26. -/
theorem shiftsSetTheBitShiftedOut : Obligations.ShiftsSetTheBitShiftedOut := by
  refine ⟨encodedAs_xy 0x8 0x6 (fun _ _ => rfl) (by decide), encodedAs_xy 0x8 0xE (fun _ _ => rfl) (by decide),
    fun x y s b hb => ?_⟩
  obtain rfl : b = shiftOperand s x y := hb.trans (shiftOperand_eq s x y).symm
  constructor
  · obtain ⟨t, hexec, hx, hflag, hframe⟩ :=
      exec_setResultFlag_spec (i := .shr x y) (s := s) rfl (toNat_ushiftRight_one _)
    exact ⟨t, hexec, hx, hflag ▸ flagByte_shiftedOutLow_toNat _, hframe⟩
  · obtain ⟨t, hexec, hx, hflag, hframe⟩ :=
      exec_setResultFlag_spec (i := .shl x y) (s := s) rfl (toNat_shiftLeft_one _)
    exact ⟨t, hexec, hx, hflag ▸ flagByte_shiftedOutHigh_toNat _, hframe⟩

/-! ### The masked draw (R177) -/

/-- Settles O27. -/
theorem randomIsADrawMasked : Obligations.RandomIsADrawMasked := by
  refine ⟨encodedAs_xkk 0xC (fun _ _ => rfl) (by decide), fun x kk s => ?_⟩
  have hdest := State.getV_setV_self (draw s).2 x ((draw s).1 &&& kk)
  refine ⟨_, rfl, hdest, ?_, rfl, fun j hj => State.getV_setV_ne (draw s).2 _ hj, fun _ => rfl, rfl⟩
  rw [hdest, BitVec.and_assoc, BitVec.and_not_self]
  exact BitVec.and_zero

end Sys2Proof.Machine
end

section
/-! SUPPORT. The words of the formats with one register and a fixed low byte (30_encoding.md R92, R96): they and no
others decode to the row's instruction. -/

namespace Sys2Proof

section
variable {op : Word} {h : Nibble} {kk : Byte}

theorem and_mask_F0FF_eq_iff : op &&& 0xF0FF = (h ++ 0x0#4) ++ kk ↔ fieldN1 op = h ∧ fieldKk op = kk := by
  rw [and_mask_F0FF]
  constructor
  · intro he
    have hkk : fieldKk op = kk := by
      simpa only [BitVec.extractLsb'_append_eq_right] using congrArg (BitVec.extractLsb' 0 8) he
    rw [hkk] at he
    exact ⟨(BitVec.append_left_inj _).1 ((BitVec.append_left_inj _).1 he), hkk⟩
  · rintro ⟨rfl, rfl⟩
    rfl

theorem formatXkk_fieldX_eq_iff : formatXkk h (fieldX op) kk = op ↔ fieldN1 op = h ∧ fieldKk op = kk :=
  ⟨fun he => by rw [← he, fieldN1_formatXkk, fieldKk_formatXkk]; exact ⟨rfl, rfl⟩,
    fun ⟨h1, hkk⟩ => formatXkk_of_keys h1 hkk⟩

end

theorem encodedAs_x {w : Word} (h : Nibble) (kk : Byte) {c : Reg → Instr} (henc : ∀ x, encode (c x) = formatXkk h x kk)
    (hw : (h ++ 0x0#4) ++ kk = w) : Machine.EncodedAs w 0xF0FF fun op => c (fieldX op) := fun op => by
  rw [decodeWord_eq_ok_iff, henc, formatXkk_fieldX_eq_iff, ← hw, and_mask_F0FF_eq_iff]

end Sys2Proof
end

section
/-! SUPPORT. Index register and memory (43_index_memory.md): the blocks loaded from and stored to memory (R193 to R195,
R251), how a load undoes a store, and the writes of I (R190 to R192). -/

namespace Sys2Proof.Machine

/-! ### The block load (R195, R62) -/

theorem exec_loadRegs_of_room {x : Reg} {s : State} (h : dataBase s + x.val ≤ 0xFFF) :
    ∃ t, exec (.loadRegs x) s = .next t ∧ (∀ k : Reg, k ≤ x → t.getV k = s.readByte (dataBase s + k.val)) ∧
      OnlyRegs (· ≤ x) s t := by
  have hexec : ∃ t, exec (.loadRegs x) s = .next t := by
    simp only [exec, execLoadRegs, memReads_ok s (instrPc s) (dataBase s) (x.val + 1) fun k hk => by omega]
    exact ⟨_, rfl⟩
  obtain ⟨t, ht⟩ := hexec
  obtain ⟨-, w, rfl, hv⟩ := exec_loadRegs_next ht
  exact ⟨_, ht, fun k hk => (hv k).trans (if_pos hk), fun k hk => (hv k).trans (if_neg hk), fun _ => rfl, rfl⟩

theorem exec_loadRegs_of_outside {x : Reg} {s : State} {k : Nat} (hk : k ≤ x.val)
    (hlow : ∀ j < k, dataBase s + j ≤ 0xFFF) (hbad : 0xFFF < dataBase s + k) :
    exec (.loadRegs x) s = .fault (.boundsError (.memRead (dataBase s + k)) (instrPc s)) := by
  simp only [exec, execLoadRegs, memReads_error s _ _ _ k (Nat.lt_succ_of_le hk) hlow hbad]

/-- Settles O35: the store that completes shows that the whole block is inside the memory, and leaves I alone. -/
theorem loadAfterStoreRestoresRegisters : Obligations.LoadAfterStoreRestoresRegisters := by
  intro x s t w hm hstore
  obtain ⟨ha, ⟨-, heq⟩, -⟩ := exec_storeRegs_next hstore
  have hbase : dataBase { t with v := w } = dataBase s := by rw [heq]; rfl
  obtain ⟨u, hload, hv, -⟩ := exec_loadRegs_of_room (s := { t with v := w }) (hbase ▸ (ha x.val le_rfl).1)
  refine ⟨u, hload, fun k hk => ?_⟩
  rw [hv k hk, hbase]
  exact exec_storeRegs_readByte hm hstore k hk

/-- Settles O34. -/
theorem loadRegisterBlock : Obligations.LoadRegisterBlock :=
  ⟨encodedAs_x 0xF 0x65 (fun _ => rfl) (by decide), fun _ _ => exec_loadRegs_of_room,
    fun _ _ _ _ ha hk hlow hbad => instrPc_of_advanced ha ▸ exec_loadRegs_of_outside hk hlow hbad⟩

/-! ### The writes of I (R190 to R192) -/

theorem setI_onlyIndex (s : State) (a : Index) : OnlyIndex s (s.setI a) := ⟨fun _ => rfl, rfl⟩

/-- The largest product is 255 times 5, which 12 bits hold: the font starts at 0 (R41). -/
theorem fontAddress_toNat (b : Byte) : (fontAddress b).toNat = b.toNat * 5 := by
  rw [fontAddress, BitVec.toNat_ofNat, fontBase, Nat.zero_add]
  exact Nat.mod_eq_of_lt (by omega)

/-- Settles O30. -/
theorem indexLoads : Obligations.IndexLoads :=
  ⟨encodedAs_nnn 0xA (fun _ => rfl) (by decide), encodedAs_x 0xF 0x29 (fun _ => rfl) (by decide),
    fun nnn s => ⟨_, rfl, rfl, setI_onlyIndex s nnn⟩, fun _ s => ⟨_, rfl, fontAddress_toNat _, setI_onlyIndex s _⟩⟩

theorem indexSum_toNat (i : Index) (b : Byte) : (indexSum i b).toNat = (i.toNat + b.toNat) % 4096 :=
  BitVec.toNat_ofNat ..

theorem flagByte_indexOverflow (i : Index) (b : Byte) :
    flagByte (indexOverflow i b) = if 0xFFF < i.toNat + b.toNat then 1 else 0 := flagByte_decide _

theorem exec_addIndex_of_off (x : Reg) {s : State} (hc : s.cfg.indexFlag = .off) :
    exec (.addIndex x) s = .next (s.setI (indexSum s.i (s.getV x))) := by
  simp only [exec, execAddIndex, hc]

theorem exec_addIndex_of_on (x : Reg) {s : State} (hc : s.cfg.indexFlag = .on) :
    exec (.addIndex x) s =
      .next ((s.setI (indexSum s.i (s.getV x))).setV vf (flagByte (indexOverflow s.i (s.getV x)))) := by
  simp only [exec, execAddIndex, hc]

/-- Settles O31. -/
theorem addToIndexWraps : Obligations.AddToIndexWraps := by
  refine ⟨encodedAs_x 0xF 0x1E (fun _ => rfl) (by decide), fun x s => ?_⟩
  rw [← flagByte_indexOverflow]
  cases hc : s.cfg.indexFlag with
  | off => exact ⟨_, exec_addIndex_of_off x hc, indexSum_toNat .., fun _ => setI_onlyIndex s _, nofun⟩
  | on =>
    exact ⟨_, exec_addIndex_of_on x hc, indexSum_toNat .., nofun, fun _ =>
      ⟨State.getV_setV_self _ vf _, fun _ hj => State.getV_setV_ne (s.setI _) _ hj, fun _ => rfl, rfl⟩⟩

/-! ### The block stores (R193, R194, R63, R64) -/

section
variable {i : Instr} {s : State} {bs : List Byte} (hi : exec i s = complete (memWrites s (instrPc s) (dataBase s) bs))
include hi

/-- A meaning that stores the bytes `bs` from I up completes if each of them may be stored, and changes nothing else. -/
theorem exec_memWrites_of_allowed (ha : ∀ k < bs.length, StoreAllowed s (dataBase s + k)) :
    ∃ t, exec i s = .next t ∧ OnlyBytes (dataBase s) bs.length s t ∧
      (MemoryCanonical s → ∀ (k : Nat) (hk : k < bs.length), t.readByte (dataBase s + k) = bs[k]) := by
  obtain ⟨t, ht, hframe, hread⟩ := memWrites_ok s (instrPc s) (dataBase s) bs ha
  exact ⟨t, by rw [hi, ht, complete], hframe, fun hm => (hread hm).2⟩

/-- In an instruction fetched from `a`, the lowest address not to be stored to is reported (R251, R256). -/
theorem exec_memWrites_of_forbidden {a : Word} {k : Nat} (hpc : s.pc = a + 2) (hk : k < bs.length)
    (hlow : ∀ j < k, StoreAllowed s (dataBase s + j)) (hbad : ¬ StoreAllowed s (dataBase s + k)) :
    exec i s = .fault (.boundsError (.memWrite (dataBase s + k)) a) := by
  rw [hi, memWrites_error s (instrPc s) (dataBase s) bs k hk hlow hbad, instrPc_of_advanced hpc, complete]

end

/-- Settles O32: each digit is below 10, so a byte holds it. -/
theorem storeDecimalDigits : Obligations.StoreDecimalDigits := by
  refine ⟨encodedAs_x 0xF 0x33 (fun _ => rfl) (by decide), fun x s ha => ?_,
    fun x _ _ _ hpc hk => exec_memWrites_of_forbidden (i := .storeBcd x) rfl hpc hk⟩
  obtain ⟨t, ht, hframe, hread⟩ := exec_memWrites_of_allowed (i := .storeBcd x) rfl ha
  refine ⟨t, ht, hframe, fun hm => ?_⟩
  have hhundreds : t.readByte (dataBase s) = BitVec.ofNat 8 ((s.getV x).toNat / 100) := hread hm 0 (by decide : 0 < 3)
  have htens : t.readByte (dataBase s + 1) = BitVec.ofNat 8 ((s.getV x).toNat / 10 % 10) :=
    hread hm 1 (by decide : 1 < 3)
  have hones : t.readByte (dataBase s + 2) = BitVec.ofNat 8 ((s.getV x).toNat % 10) := hread hm 2 (by decide : 2 < 3)
  simp only [hhundreds, htens, hones, BitVec.toNat_ofNat]
  omega

/-- Settles O33. -/
theorem storeRegisterBlock : Obligations.StoreRegisterBlock := by
  refine ⟨encodedAs_x 0xF 0x55 (fun _ => rfl) (by decide), fun x s ha => ?_, fun x s _ _ hpc hk =>
    exec_memWrites_of_forbidden (i := .storeRegs x) rfl hpc (regBlock_length s x ▸ Nat.lt_succ_of_le hk)⟩
  have hlen := regBlock_length s x
  obtain ⟨t, ht, hframe, -⟩ := exec_memWrites_of_allowed (i := .storeRegs x) (s := s) rfl fun k hk =>
    ha k (by omega)
  exact ⟨t, ht, hlen ▸ hframe, fun hm => exec_storeRegs_readByte hm ht⟩

end Sys2Proof.Machine
end

section
/-! SUPPORT. Display (44_display.md): the words of DRW, the sprite's pixels on the screen (R212), what a draw toggles
and its collision flag (R211), two draws one after the other, and the clear (R210). -/

namespace Sys2Proof.Machine

/-! ### The words of DRW (R92, R96) -/

theorem formatXyn_fields_eq_iff {op : Word} {h : Nibble} :
    formatXyn h (fieldX op) (fieldY op) (fieldN op) = op ↔ fieldN1 op = h :=
  ⟨fun he => by rw [← he, fieldN1_formatXyn], fun h1 => by rw [← h1, formatXyn_fields]⟩

theorem encodedAs_xyn {w : Word} (h : Nibble) {c : Reg → Reg → Nibble → Instr}
    (henc : ∀ x y n, encode (c x y n) = formatXyn h x y n) (hw : h ++ 0x000#12 = w) :
    EncodedAs w 0xF000 fun op => c (fieldX op) (fieldY op) (fieldN op) := fun op => by
  rw [decodeWord_eq_ok_iff, henc, formatXyn_fields_eq_iff, ← hw, and_mask_F000_eq_iff]

/-! ### The sprite of a draw (R212) -/

/-- The `n` bytes of the sprite, in ascending order from I. -/
def spriteRows (s : State) (n : Nibble) : List Byte := (List.range n.toNat).map fun k => s.readByte (dataBase s + k)

theorem spriteRows_length (s : State) (n : Nibble) : (spriteRows s n).length = n.toNat := by simp [spriteRows]

theorem spriteRows_getElem (s : State) (n : Nibble) (r : Nat) (h : r < (spriteRows s n).length) :
    (spriteRows s n)[r] = s.readByte (s.i.toNat + r) := by simp [spriteRows, dataBase]

theorem rowsCover_spriteRows_iff {s : State} {x y : Reg} {n : Nibble} {px : Fin 64} {py : Fin 32} :
    RowsCover s.cfg.drawEdge (startColumn s x) (startRow s y) (spriteRows s n) px py ↔ SpriteCovers s x y n px py := by
  simp only [RowsCover, SpriteCovers, startColumn, startRow, spriteRows_getElem, spriteRows_length, exists_prop,
    exists_and_left]

/-! ### One draw (R211) -/

theorem exec_drw_of_room (x y : Reg) {n : Nibble} {s : State} (h : ∀ r < n.toNat, s.i.toNat + r ≤ 0xFFF) :
    ∃ t, exec (.drw x y n) s = .next t := by
  simp only [exec, execDrw, memReads_ok s (instrPc s) (dataBase s) n.toNat h]
  exact ⟨_, rfl⟩

theorem exec_drw_of_outside (x y : Reg) {n : Nibble} {s : State} {k : Nat} (hk : k < n.toNat)
    (hlow : ∀ r < k, s.i.toNat + r ≤ 0xFFF) (hbad : 0xFFF < s.i.toNat + k) :
    exec (.drw x y n) s = .fault (.boundsError (.memRead (s.i.toNat + k)) (instrPc s)) := by
  simp only [exec, execDrw, memReads_error s (instrPc s) (dataBase s) n.toNat k hk hlow hbad]
  rfl

section
variable {x y : Reg} {n : Nibble} {s t : State} (h : exec (.drw x y n) s = .next t)
include h

theorem exec_drw_frame :
    (∀ j : Reg, j ≠ 15 → t.getV j = s.getV j) ∧ SameMemory s t ∧ t = { s with v := t.v, fb := t.fb } := by
  obtain ⟨-, fb, coll, -, rfl⟩ := exec_drw_next h
  exact ⟨fun j hj => State.getV_setV_ne { s with fb := fb } _ hj, fun _ => rfl, rfl⟩

/-- The sprite is at most 15 rows tall, so the blit touches each pixel at most once (R211). -/
theorem exec_drw_blit :
    (∀ px py, SpriteCovers s x y n px py → pixelAt t px py = !pixelAt s px py) ∧
    (∀ px py, ¬ SpriteCovers s x y n px py → pixelAt t px py = pixelAt s px py) ∧
    ∃ coll, t.getV 15 = flagByte coll ∧
      (coll = true ↔ ∃ px py, SpriteCovers s x y n px py ∧ pixelAt s px py = true) := by
  obtain ⟨-, fb, coll, hdraw, rfl⟩ := exec_drw_next h
  have hlen : (spriteRows s n).length ≤ 32 := by rw [spriteRows_length]; omega
  have hspec := drawRows_spec s.cfg.drawEdge (startColumn s x) (startRow s y) (spriteRows s n) s.fb hlen
  simp only [rowsCover_spriteRows_iff, show drawRows _ _ _ (spriteRows s n) _ = (fb, coll) from hdraw] at hspec
  obtain ⟨hcovered, huncovered, hcoll⟩ := hspec
  exact ⟨hcovered, huncovered, coll, State.getV_setV_self { s with fb := fb } vf _, hcoll⟩

theorem exec_drw_flag_of_collision (hc : ∃ px py, SpriteCovers s x y n px py ∧ pixelAt s px py = true) :
    t.getV 15 = 1 := by
  obtain ⟨-, -, coll, hflag, hcoll⟩ := exec_drw_blit h
  rw [hflag, hcoll.2 hc]
  rfl

theorem exec_drw_flag_of_no_collision (hc : ∀ px py, SpriteCovers s x y n px py → pixelAt s px py = false) :
    t.getV 15 = 0 := by
  obtain ⟨-, -, coll, hflag, hcoll⟩ := exec_drw_blit h
  have hoff : coll = false := Bool.eq_false_iff.2 fun hon => by
    obtain ⟨px, py, hcover, hset⟩ := hcoll.1 hon
    exact Bool.false_ne_true ((hc px py hcover).symm.trans hset)
  rw [hflag, hoff]
  rfl

/-- The next draw, with the registers put back, meets the same sprite: a draw changes neither memory nor I. -/
theorem exec_drw_spriteCovers_iff (px : Fin 64) (py : Fin 32) :
    SpriteCovers { t with v := s.v } x y n px py ↔ SpriteCovers s x y n px py := by
  obtain ⟨-, -, heq⟩ := exec_drw_frame h
  rw [heq]
  rfl

end

/-- Settles O38. -/
theorem drawTogglesTheCoveredPixels : Obligations.DrawTogglesTheCoveredPixels := by
  refine ⟨encodedAs_xyn 0xD (fun _ _ _ => rfl) (by decide), fun x y n s hroom => ?_,
    fun x y n s a k ha hk hlow hbad => instrPc_of_advanced ha ▸ exec_drw_of_outside x y hk hlow hbad⟩
  obtain ⟨t, h⟩ := exec_drw_of_room x y hroom
  obtain ⟨hcovered, huncovered, -⟩ := exec_drw_blit h
  exact ⟨t, h, hcovered, huncovered, exec_drw_flag_of_collision h, exec_drw_flag_of_no_collision h,
    exec_drw_frame h⟩

/-! ### The same draw twice (R211) -/

/-- Settles O39: both draws toggle the same pixels, and a pixel that the first one set is one of them. -/
theorem drawingTwiceRestoresTheScreen : Obligations.DrawingTwiceRestoresTheScreen := by
  intro x y n s t u hfirst hsecond
  obtain ⟨hcovered, huncovered, -⟩ := exec_drw_blit hfirst
  obtain ⟨hcovered', huncovered', -⟩ := exec_drw_blit hsecond
  have hsame := exec_drw_spriteCovers_iff hfirst
  refine ⟨fun px py => ?_, fun ⟨px, py, hunset, hset⟩ => ?_⟩
  · by_cases hc : SpriteCovers s x y n px py
    · calc pixelAt u px py
        _ = !pixelAt t px py := hcovered' px py ((hsame px py).2 hc)
        _ = pixelAt s px py := by rw [hcovered px py hc, Bool.not_not]
    · exact (huncovered' px py (mt (hsame px py).1 hc)).trans (huncovered px py hc)
  · have hc : SpriteCovers s x y n px py := by
      by_contra hc
      exact Bool.false_ne_true (hunset.symm.trans ((huncovered px py hc).symm.trans hset))
    exact exec_drw_flag_of_collision hsecond ⟨px, py, (hsame px py).2 hc, hset⟩

/-! ### The clear (R210) -/

/-- Settles O37. -/
theorem clearUnsetsEveryPixel : Obligations.ClearUnsetsEveryPixel :=
  ⟨encodedAs_fixed .cls rfl, fun _ => ⟨_, rfl, pixel_blank, fun _ => rfl, rfl⟩⟩

end Sys2Proof.Machine
end

section
/-! SUPPORT. Keypad and timers (45_keypad_timers.md): the skips on a key (R230, R231, R236), the wait for a key and its
stall (R232, R262), and the timer moves (R233 to R235). -/

namespace Sys2Proof.Machine

/-! ### The skips on a key (R230, R231, R236) -/

theorem selectedKey_down_iff {s : State} {x : Reg} {k : Key} (hk : k.val = (s.getV x).toNat % 16) :
    s.keys.getLsbD ((s.getV x).toNat % 16) = true ↔ KeyDown s k := by
  rw [← hk, KeyDown]

/-- Settles O40: PC is the one that `exec_next_pc` gives, on either side of the test of key `k`. -/
theorem skipsTestTheSelectedKey : Obligations.SkipsTestTheSelectedKey := by
  refine ⟨encodedAs_x 0xE 0x9E (fun _ => rfl) (by decide), encodedAs_x 0xE 0xA1 (fun _ => rfl) (by decide),
    fun x s a k ha hk => ?_⟩
  have hdown := selectedKey_down_iff hk
  have hskp := exec_next_pc (i := .skp x) ha rfl
  have hsknp := exec_next_pc (i := .sknp x) ha rfl
  exact ⟨⟨_, rfl, fun hd => hskp.trans (if_pos (hdown.2 hd)), fun hu => hskp.trans (if_neg (mt hdown.1 hu)),
      skipIf_onlyPc _ s⟩,
    ⟨_, rfl, fun hd => hsknp.trans (if_pos (hdown.2 hd)), fun hu => hsknp.trans (if_neg (mt hdown.1 hu)),
      skipIf_onlyPc _ s⟩⟩

/-! ### The wait for a key (R232) -/

theorem exec_waitKey_of_noKey (x : Reg) {s : State} (h : ∀ k, ¬ KeyDown s k) :
    exec (.waitKey x) s = .next (s.setPc (instrPc s)) := by
  simp only [exec, execWaitKey, (lowestKey_eq_none s).2 h, instrPc]

theorem exec_waitKey_of_lowest (x : Reg) {s : State} {k : Key} (hk : KeyDown s k) (hlow : ∀ j < k, ¬ KeyDown s j) :
    exec (.waitKey x) s = .next (s.setV x (BitVec.ofNat 8 k.val)) := by
  simp only [exec, execWaitKey, (lowestKey_eq_some s k).2 ⟨hk, hlow⟩]

/-- Settles O41. -/
theorem waitKeyStallsOrTakesTheLowestKey : Obligations.WaitKeyStallsOrTakesTheLowestKey := by
  refine ⟨encodedAs_x 0xF 0x0A (fun _ => rfl) (by decide), fun x s a ha hno => ?_, fun x s k hk hlow => ?_⟩
  · exact ⟨_, exec_waitKey_of_noKey x hno, instrPc_of_advanced ha, setPc_onlyPc s _⟩
  · obtain ⟨t, hexec, hx, hframe⟩ := exec_setV_spec (exec_waitKey_of_lowest x hk hlow)
    refine ⟨t, hexec, ?_, hframe⟩
    rw [hx, BitVec.toNat_ofNat]
    exact Nat.mod_eq_of_lt (by omega)

/-! ### A stalled wait as a step (R232, R124, R262) -/

/-- The machine runs, no key is down, and a wait for one is the next instruction. -/
def WaitStalled (s : State) : Prop :=
  s.run = .running ∧ s.keys = 0 ∧ ∃ op x, WordAtPc s op ∧ decodeWord op = .ok (.waitKey x)

/-- The wait takes PC back over the two bytes that the fetch advanced it by. -/
theorem step_of_waitStalled {s : State} (h : WaitStalled s) : step s = .next s := by
  obtain ⟨hr, hkeys, op, x, hw, hd⟩ := h
  have hno : ∀ k, ¬ KeyDown (advance s) k := (noKeyDown_iff (advance s)).2 hkeys
  have hback : instrPc (advance s) = s.pc := instrPc_of_advanced rfl
  calc step s
    _ = exec (.waitKey x) (advance s) := stepRunsTheDecodedInstruction s op _ hr hw hd
    _ = .next ((advance s).setPc (instrPc (advance s))) := exec_waitKey_of_noKey x hno
    _ = .next s := by rw [hback]; rfl

theorem hostDo_step_of_waitStalled {s : State} (h : WaitStalled s) : hostDo .step s = .done s.beginRun := by
  simp only [hostDo, hostStep, step_of_waitStalled h]

theorem WaitStalled.beginRun {s : State} (h : WaitStalled s) : WaitStalled s.beginRun := h

theorem WaitStalled.tickTimers {s : State} (h : WaitStalled s) : WaitStalled (tickTimers s) := h

theorem hostDo_tickTimers_of_running {s : State} (hr : s.run = .running) :
    hostDo .tickTimers s = .done (tickTimers s) := by
  simp only [hostDo, hr]

/-- Settles O42: the tick reads and writes nothing that the stall depends on. -/
theorem stalledWaitIsAStepThatChangesNothing : Obligations.StalledWaitIsAStepThatChangesNothing := by
  intro s op x hr hkeys hw hd
  have hs : WaitStalled s := ⟨hr, hkeys, op, x, hw, hd⟩
  refine ⟨step_of_waitStalled hs, ?_⟩
  have htick := hostDo_tickTimers_of_running (s := s.beginRun) hr
  simp only [hostRun, HostReply.state?, hostDo_step_of_waitStalled hs, htick,
    hostDo_step_of_waitStalled hs.beginRun.tickTimers]
  rfl

/-! ### The timers (R233 to R235) -/

/-- Settles O43. -/
theorem timerInstructionsMoveTimers : Obligations.TimerInstructionsMoveTimers :=
  ⟨encodedAs_x 0xF 0x07 (fun _ => rfl) (by decide), encodedAs_x 0xF 0x15 (fun _ => rfl) (by decide),
    encodedAs_x 0xF 0x18 (fun _ => rfl) (by decide), fun _ _ =>
    ⟨exec_setV_spec rfl, ⟨_, rfl, rfl, fun _ => rfl, rfl⟩, ⟨_, rfl, rfl, soundActive_iff _, fun _ => rfl, rfl⟩⟩⟩

end Sys2Proof.Machine
end

section
/-! SUPPORT. The fault model (60_exceptions.md): what a step can fault for and what its record says (R250 to R253), what
a fault writes and bars (R255, R257, R258, R125), and how the boot sequence ends the time for `load_rom` (R270, R292). -/

namespace Sys2Proof.Machine

/-! ### The faults of the fetch and of the decode (R121, R123, R252, R253) -/

/-- All that a fetch can answer: the first of its two reads that is out of range faults, or the word stands at PC. -/
theorem fetchWord_cases (s : State) :
    (∃ addr, (addr = s.pc.toNat ∨ addr = s.pc.toNat + 1) ∧ 0xFFF < addr ∧
      fetchWord s = .error (.boundsError (.memRead addr) s.pc)) ∨
    (∃ op, WordAtPc s op ∧ fetchWord s = .ok op) := by
  obtain hpc | hpc | hpc : s.pc.toNat < 0xFFF ∨ s.pc.toNat = 0xFFF ∨ 0xFFF < s.pc.toNat := by omega
  · exact .inr ⟨_, ⟨hpc, (highByte_wordOfBytes _ _).symm, (lowByte_wordOfBytes _ _).symm⟩, fetchWord_ok hpc⟩
  · exact .inl ⟨0x1000, .inr (by rw [hpc]), by decide, fetchWord_error_second hpc⟩
  · exact .inl ⟨s.pc.toNat, .inl rfl, hpc, fetchWord_error_first hpc⟩

theorem fetchInstr_of_decodeWord_error {s : State} {op : Word} {e : DecodeRefusal} (h : fetchWord s = .ok op)
    (hd : decodeWord op = .error e) : fetchInstr s = .error (.decodeError op s.pc) := by
  simp only [fetchInstr, h, hd, raise]

/-- Settles O7: a word that matches no row does not decode. -/
theorem unassignedWordRaisesDecodeError : Obligations.UnassignedWordRaisesDecodeError := fun _ op hr hw hno =>
  step_of_fetch_error hr
    (fetchInstr_of_decodeWord_error (fetchWord_of_wordAtPc hw) ((matchesWord_false_iff_unassigned op).1 hno))

/-! ### The faults of the execute phase (R252, R251) -/

/-- A meaning that stores a block faults only at an address that may not be stored to. -/
theorem exec_memWrites_fault {i : Instr} {s : State} {bs : List Byte} {a : Word} {f : Fault}
    (hi : exec i s = complete (memWrites s (instrPc s) (dataBase s) bs)) (hpc : s.pc = a + 2) (h : exec i s = .fault f) :
    ∃ k < bs.length, ¬ StoreAllowed s (dataBase s + k) ∧ f = .boundsError (.memWrite (dataBase s + k)) a := by
  obtain ha | ⟨k, hk, hlow, hbad, -⟩ := memWrites_cases s (instrPc s) (dataBase s) bs
  · obtain ⟨t, ht, -⟩ := exec_memWrites_of_allowed hi ha
    rw [ht] at h
    cases h
  · rw [exec_memWrites_of_forbidden hi hpc hk hlow hbad] at h
    cases h
    exact ⟨k, hk, hbad, rfl⟩

/-- An instruction fetched from `a` faults only for a cause that R252 lists, and the record names `a`. -/
theorem exec_fault_cause {i : Instr} {s : State} {a : Word} {f : Fault} (hpc : s.pc = a + 2) (h : exec i s = .fault f) :
    ExecuteFaultCause i s a f := by
  have ha : instrPc s = a := instrPc_of_advanced hpc
  cases i with
  | ret =>
    obtain hs | hs := Nat.eq_zero_or_pos s.sp.val
    · rw [exec_ret_of_empty hs, ha] at h
      cases h
      exact ⟨hs, rfl⟩
    · rw [exec_ret_of_pos hs] at h
      cases h
  | call nnn =>
    obtain hs | hs : s.sp.val < 16 ∨ s.sp.val = 16 := by omega
    · rw [exec_call_of_room nnn hs] at h
      cases h
    · rw [exec_call_of_full nnn hs, ha] at h
      cases h
      exact ⟨hs, rfl⟩
  | drw x y n =>
    obtain ⟨hroom, -⟩ | ⟨k, hk, hlow, hbad, -⟩ := memReads_cases s (instrPc s) (dataBase s) n.toNat
    · obtain ⟨t, ht⟩ := exec_drw_of_room x y hroom
      rw [ht] at h
      cases h
    · rw [exec_drw_of_outside x y hk hlow hbad, ha] at h
      cases h
      exact ⟨k, hk, hbad, rfl⟩
  | loadRegs x =>
    obtain ⟨hroom, -⟩ | ⟨k, hk, hlow, hbad, -⟩ := memReads_cases s (instrPc s) (dataBase s) (x.val + 1)
    · obtain ⟨t, ht, -⟩ := exec_loadRegs_of_room (hroom x.val (Nat.lt_succ_self _))
      rw [ht] at h
      cases h
    · rw [exec_loadRegs_of_outside (Nat.le_of_lt_succ hk) hlow hbad, ha] at h
      cases h
      exact ⟨k, Nat.le_of_lt_succ hk, hbad, rfl⟩
  | storeBcd x => exact exec_memWrites_fault (i := .storeBcd x) rfl hpc h
  | storeRegs x =>
    obtain ⟨k, hk, hbad, hf⟩ := exec_memWrites_fault (i := .storeRegs x) rfl hpc h
    rw [regBlock_length] at hk
    exact ⟨k, Nat.le_of_lt_succ hk, hbad, hf⟩
  | addIndex x =>
    cases hc : s.cfg.indexFlag with
    | off => rw [exec_addIndex_of_off x hc] at h; cases h
    | on => rw [exec_addIndex_of_on x hc] at h; cases h
  | waitKey x =>
    simp only [exec, execWaitKey] at h
    cases hk : lowestKey s <;> rw [hk] at h <;> cases h
  | _ => cases h

/-- The causes of R252 do not depend on PC. -/
theorem executeFaultCause_setPc (i : Instr) (s : State) (w a : Word) (f : Fault) :
    ExecuteFaultCause i (s.setPc w) a f ↔ ExecuteFaultCause i s a f := by
  cases i <;> exact Iff.rfl

/-! ### The faults of a step (R250 to R253) -/

theorem step_fault_running {s : State} {f : Fault} (h : step s = .fault f) : s.run = .running := by
  cases hr : s.run with
  | running => rfl
  | faulted record => rw [step_of_faulted hr] at h; cases h

/-- Settles O9: the fetch faults, or the word at PC does not decode, or its instruction faults. -/
theorem stepFaultsOnlyAsListed : Obligations.StepFaultsOnlyAsListed := by
  intro s f h
  have hr : s.run = .running := step_fault_running h
  refine ⟨hr, ?_⟩
  obtain ⟨addr, haddr, hbad, he⟩ | ⟨op, hw, hok⟩ := fetchWord_cases s
  · rw [step_of_fetch_error hr (fetchInstr_of_fetchWord_error he)] at h
    cases h
    exact .inl ⟨addr, haddr, hbad, rfl⟩
  · cases hd : decodeWord op with
    | error e =>
      rw [step_of_fetch_error hr (fetchInstr_of_decodeWord_error hok hd)] at h
      cases h
      exact .inr (.inl ⟨op, hw, decodeWord_error_unassigned hd ▸ hd, rfl⟩)
    | ok i =>
      rw [step_of_fetch_ok hr (fetchInstr_of_decodeWord_ok hok hd)] at h
      exact .inr (.inr ⟨op, i, hw, hd, (executeFaultCause_setPc i s _ _ f).1 (exec_fault_cause rfl h)⟩)

/-! ### What a fault writes and bars (R255, R257, R258, R125) -/

theorem hostDo_step_of_fault {s : State} {f : Fault} (h : step s = .fault f) :
    hostDo .step s = .failed (latchFault s f) f := by simp only [hostDo, hostStep, h]

/-- In a faulted machine every operation but `reset()` is outside the host's contract. -/
theorem hostDo_of_faulted {s : State} {record : Fault} (hr : s.run = .faulted record) {op : HostOp} (hop : op ≠ .reset) :
    ∃ why, hostDo op s = .outside why := by
  cases op with
  | reset => exact absurd rfl hop
  | step => exact ⟨.stepAfterFault record, by simp only [hostDo, hostStep, step_of_faulted hr]⟩
  | loadRom bytes | tickTimers | setKey code pressed => exact ⟨.hostOpAfterFault record, by simp only [hostDo, hr]⟩

/-- Settles O10. -/
theorem faultCommitsNothingButRun : Obligations.FaultCommitsNothingButRun := fun s f h =>
  ⟨hostDo_step_of_fault h, fun _ hop => hostDo_of_faulted (s := latchFault s f) rfl hop⟩

/-! ### The boot sequence (R270, R292, R69) -/

/-- The time for `load_rom` is over: an image has been loaded or a step taken, or the machine has faulted. -/
def LoadTimeOver (s : State) : Prop := s.boot = .underway ∨ ∃ record, s.run = .faulted record

theorem hostDo_loadRom_of_loadTimeOver {s : State} (h : LoadTimeOver s) (bytes : List Byte) :
    ∃ why, hostDo (.loadRom bytes) s = .outside why := by
  cases hr : s.run with
  | faulted record => exact hostDo_of_faulted hr (by simp)
  | running =>
    have hb : s.boot = .underway := h.resolve_right fun ⟨_, hf⟩ => by rw [hr] at hf; cases hf
    exact ⟨.loadOutOfTurn, by rw [hostDo_loadRom_of_running hr, loadRom_out_of_turn hb]⟩

/-- A step of the host ends the time for `load_rom`, whether it completes or faults. -/
theorem hostStep_loadTimeOver {s t : State} (h : (hostStep s).state? = some t) : LoadTimeOver t := by
  obtain ⟨u, -, rfl⟩ | ⟨f, -, rfl⟩ := hostStep_cases h
  · exact .inl rfl
  · exact .inr ⟨f, rfl⟩

/-- A `load_rom` that succeeds ends the time for `load_rom`. -/
theorem hostDo_loadRom_loadTimeOver {s t : State} {bytes : List Byte} (h : hostDo (.loadRom bytes) s = .done t) :
    LoadTimeOver t := by
  cases hr : s.run with
  | faulted record =>
    obtain ⟨why, ho⟩ := hostDo_of_faulted hr (op := .loadRom bytes) (by simp)
    rw [ho] at h
    cases h
  | running =>
    rw [hostDo_loadRom_of_running hr] at h
    cases hb : s.boot with
    | underway => rw [loadRom_out_of_turn hb] at h; cases h
    | awaitingRom =>
      by_cases hwf : romWellFormed bytes = true
      · rw [loadRom_accepts hb hwf] at h
        cases h
        exact .inl rfl
      · rw [loadRom_rejects hb hwf] at h
        cases h

/-- Only `reset()` opens the time for `load_rom` again. -/
theorem hostDo_keeps_loadTimeOver {s t : State} (hs : LoadTimeOver s) {op : HostOp} (hop : op ≠ .reset)
    (h : (hostDo op s).state? = some t) : LoadTimeOver t := by
  obtain ⟨rfl, -⟩ | ⟨bytes, rfl, -, -⟩ | ⟨-, hstep⟩ | ⟨-, -, rfl⟩ | ⟨_, _, -, -, -, rfl⟩ := hostDo_cases h
  · exact absurd rfl hop
  · obtain ⟨why, ho⟩ := hostDo_loadRom_of_loadTimeOver hs bytes
    rw [ho] at h
    cases h
  · exact hostStep_loadTimeOver hstep
  · exact hs
  · exact hs

theorem hostRun_keeps_loadTimeOver {s u : State} (hs : LoadTimeOver s) {ops : List HostOp} (hops : ∀ o ∈ ops, o ≠ .reset)
    (h : hostRun ops s = some u) : LoadTimeOver u := by
  induction ops generalizing s with
  | nil => cases h; exact hs
  | cons op ops ih =>
    obtain ⟨hop, hrest⟩ := List.forall_mem_cons.1 hops
    simp only [hostRun] at h
    cases ht : (hostDo op s).state? with
    | none => rw [ht] at h; cases h
    | some t =>
      rw [ht] at h
      exact ih (hostDo_keeps_loadTimeOver hs hop ht) hrest h

/-- Settles O54: the time for `load_rom` is over after the first operation and stays so. -/
theorem loadRomHasNoMoveOnceTheRunHasBegun : Obligations.LoadRomHasNoMoveOnceTheRunHasBegun := by
  intro op ops s t u bytes hop hdone hops hrun
  have ht : LoadTimeOver t := by
    obtain rfl | ⟨image, rfl⟩ := hop
    · exact hostStep_loadTimeOver (congrArg HostReply.state? hdone)
    · exact hostDo_loadRom_loadTimeOver hdone
  exact hostDo_loadRom_of_loadTimeOver (hostRun_keeps_loadTimeOver ht hops hrun) bytes

end Sys2Proof.Machine
end

section
/-! SUPPORT. Reset and hazards (70_reset_and_hazards.md): the jump to its own address (R296). -/

namespace Sys2Proof.Machine

/-! ### The jump to itself (R296, R141) -/

/-- Settles O49: the jump takes PC back over the two bytes that the fetch advanced it by, and writes nothing else. -/
theorem jumpToSelfIsStable : Obligations.JumpToSelfIsStable := by
  intro s nnn op hr hpc hw hd
  have hback : jumpTarget nnn = s.pc := BitVec.eq_of_toNat_eq ((jumpTarget_toNat nnn).trans hpc.symm)
  calc step s
    _ = exec (.jp nnn) (advance s) := stepRunsTheDecodedInstruction s op _ hr hw hd
    _ = .next ((advance s).setPc (jumpTarget nnn)) := rfl
    _ = .next s := by rw [hback]; rfl

end Sys2Proof.Machine
end
